-- ==== Sys2Proof/Word.lean ====
section
/-! DEFINITION. The word types of DBF and their one constant (00_scope.md R10, R11; 30_encoding.md R45, R52, R54).
A level or a one-bit register is a `Bool`: `true` is 1 and electrically high (R10). -/

namespace Sys2Proof

/-- The command word `cw[2:0] = {init, tick, pull_up_active}` (30_encoding.md R45). -/
abbrev CommandWord := BitVec 3

/-- The stimulus word `{init, tick, pull_up_active, raw}` of one edge (30_encoding.md R54). -/
abbrev StimulusWord := BitVec 4

/-- The code on the port `state[1:0]` (30_encoding.md R52). -/
abbrev TernaryCode := BitVec 2

/-- `ones(n)`: the `n`-bit value with every bit 1 (00_scope.md R11). -/
abbrev ones (n : Nat) : BitVec n := BitVec.allOnes n

end Sys2Proof
end

