-- ==== Sys2Proof/Syntax.lean ====
section
/-! DEFINITION. The syntax of DBF: the ternary state, the input ports, and one constructor of `Instr` for every row
of spec/opcode_table.json, in the table's order. -/

namespace Sys2Proof

/-- The ternary state of the shift register (40_debounced_input.md R59). -/
inductive Ternary where
  | high
  | low
  | indeterminate
  deriving DecidableEq, Repr

/-- The input ports DBF samples at a rising edge of `clk` (10_state.md R21). -/
structure Ports where
  init : Bool
  tick : Bool
  pullUpActive : Bool
  raw : Bool
  deriving DecidableEq, Repr

/-- The rows of the opcode table. Only `init`, `tick` and `nop` are selected by the command word; the others are
the micro-operations, the SYNC step and the output reads (30_encoding.md, opening paragraph).
TICK has no operand here: its sample bit is not part of the command word (30_encoding.md R50). -/
inductive Instr where
  /-- INIT `p` (40_debounced_input.md R55). -/
  | init (p : Bool)
  /-- TICK (41_sampler_transition.md R67). -/
  | tick
  /-- NOP (41_sampler_transition.md R68). -/
  | nop
  /-- SAMPLE `s`, the first half of TICK (40_debounced_input.md R56). -/
  | sample (bit : Bool)
  /-- UPDATE with the ternary state `t`, the second half of TICK (41_sampler_transition.md R66). -/
  | update (t : Ternary)
  /-- SYNC, the step of the synchronizer at every edge (42_input_synchronizer.md R75). -/
  | sync (raw : Bool)
  /-- A read of the output port `is_high` (40_debounced_input.md R57). -/
  | isHigh
  /-- A read of the output port `is_low` (40_debounced_input.md R58). -/
  | isLow
  /-- A read of the output port `state[1:0]` (40_debounced_input.md R59). -/
  | state
  /-- A read of the output port `press_ev` (41_sampler_transition.md R71). -/
  | pressEv
  /-- A read of the output port `release_ev` (41_sampler_transition.md R71). -/
  | releaseEv
  deriving DecidableEq, Repr

/-- The kinds of row the opcode table has (30_encoding.md, opening paragraph). -/
inductive Kind where
  | command
  | microOp
  | step
  | output
  deriving DecidableEq, Repr

/-- The kind of an instruction's row in the opcode table. -/
def Instr.kind : Instr → Kind
  | .init _ => .command
  | .tick => .command
  | .nop => .command
  | .sample _ => .microOp
  | .update _ => .microOp
  | .sync _ => .step
  | .isHigh => .output
  | .isLow => .output
  | .state => .output
  | .pressEv => .output
  | .releaseEv => .output

end Sys2Proof
end

