-- ==== Sys2Proof/Config.lean ====
section
/-! DEFINITION. What an instance of DBF fixes for its life (00_scope.md R5, R6, R7), and the free values of the
environment (93_implementation_defined.md U3, U4, U9). -/

namespace Sys2Proof

/-- The three elaboration parameters of an instance. `W = 0` is refused (00_scope.md R5), so no `Config` has it:
the field `w_pos` holds the side condition once (log 3). -/
structure Config where
  /-- `W`, the width of `buf` (00_scope.md R5): 8 or 16 are the values the document shows, any `W ≥ 1` is admitted. -/
  w : Nat
  /-- `ACTIVE_LOW`: confirmed-Low means Pressed (00_scope.md R6). -/
  activeLow : Bool
  /-- `N_SYNC`, the number of synchronizer stages, 0 allowed (00_scope.md R7). -/
  nSync : Nat
  /-- `W = 0` is refused (00_scope.md R5). -/
  w_pos : 0 < w := by decide
  deriving DecidableEq, Repr

/-- The instance at `State.reset`: `W = 8` (DESIGN CHOICE, log 2), `ACTIVE_LOW = true` (the default of 00_scope.md
R6), `N_SYNC = 2` (the suggested default of R7; the parameter is OPEN, log 2). -/
def Config.default : Config := { w := 8, activeLow := true, nSync := 2 }

/-- FREE VALUE (log 4): the levels the environment drives at an edge that no script gives, as a stimulus word. The
line and the tick pattern are "any value" (93_implementation_defined.md U3, U4, U9), so it has no body. -/
opaque Config.freeStimulus : Nat → StimulusWord

end Sys2Proof
end

