-- ==== Sys2Proof/WellFormed.lean ====
section
/-! DEFINITION. The checks on terms: the parameters an instance may be built with (00_scope.md R5) and the
instructions a command word can select (30_encoding.md R53). -/

namespace Sys2Proof

/-- The elaboration of an instance from its parameters: `W = 0` is refused, every other choice is admitted
(00_scope.md R5, R6, R7; 93_implementation_defined.md U13). -/
def Config.elaborate? (w : Nat) (activeLow : Bool) (nSync : Nat) : Option Config :=
  if h : 0 < w then some { w := w, activeLow := activeLow, nSync := nSync, w_pos := h } else none

/-- The widths the document itself shows, 8 and 16 (00_scope.md R5: other widths are "not shown", not "illegal"). -/
def Config.shownWidth (c : Config) : Bool := c.w == 8 || c.w == 16

/-- An instruction is well formed as the command of an edge when its row is of kind `command`: the rows SAMPLE,
UPDATE, SYNC and the outputs have no word of their own (30_encoding.md, opening paragraph; R53). -/
def Instr.wellFormed (i : Instr) : Bool := i.kind == .command

end Sys2Proof
end

