-- ==== Sys2Proof/Decode.lean ====
section
/-! DEFINITION. The command word of the ports, its decode (total on three bits, 30_encoding.md R47 to R49, R53),
the encoder, and the stimulus word (R54). -/

namespace Sys2Proof

/-- `cw = {init, tick, pull_up_active}` (30_encoding.md R45). -/
def commandWordOf (init tick pullUpActive : Bool) : CommandWord :=
  (BitVec.ofBool init ++ BitVec.ofBool tick) ++ BitVec.ofBool pullUpActive

/-- The command word on the input ports (30_encoding.md R45). -/
def Ports.commandWord (p : Ports) : CommandWord := commandWordOf p.init p.tick p.pullUpActive

/-- The ports with the three command bits replaced by those of `cw` and the line left as it is. -/
def Ports.withCommandWord (p : Ports) (cw : CommandWord) : Ports :=
  { p with init := cw.getLsbD 2, tick := cw.getLsbD 1, pullUpActive := cw.getLsbD 0 }

/-- The stimulus word `{cw, raw}` of an edge (30_encoding.md R54). -/
def Ports.stimulusWord (p : Ports) : StimulusWord := p.commandWord ++ BitVec.ofBool p.raw

/-- The input levels a stimulus word stands for (30_encoding.md R54). -/
def portsOfStimulus (x : StimulusWord) : Ports :=
  { init := x.getLsbD 3, tick := x.getLsbD 2, pullUpActive := x.getLsbD 1, raw := x.getLsbD 0 }

/-- Decode of the command word: `1xp` is INIT `p` (30_encoding.md R47; INIT wins, 60_exceptions.md R89), `01x` is
TICK (R48), `00x` is NOP (R49). There is no illegal word (R53). -/
def decode (cw : CommandWord) : Instr :=
  if cw.getLsbD 2 then .init (cw.getLsbD 0)
  else if cw.getLsbD 1 then .tick
  else .nop

/-- The command word that the first `nbits` bits of `w` put on the three wires, bit 0 of `w` on `cw[0]`. -/
def tableCommandWord (nbits w : Nat) : CommandWord := BitVec.ofNat 3 (w % 2 ^ nbits)

/-- Why a string of bits is no command word. -/
inductive DecodeError where
  /-- A bit is set above `cw[2]`: there are three command wires and one length (30_encoding.md R45). Safe: no
  instruction is read from it. -/
  | widerThanCommandWord
  deriving DecidableEq, Repr

/-- The instruction of the bits of `w`, `nbits` of them given and those above 0: total, and rejecting by name what
does not fit the three wires (log 12). -/
def decodeBits (nbits w : Nat) : Except DecodeError Instr :=
  if w % 2 ^ nbits < 8 then .ok (decode (tableCommandWord nbits w))
  else .error .widerThanCommandWord

/-- The instruction the decoder reads from an opcode-table word; `none` where it refuses. -/
def decodeTableWord (nbits w : Nat) : Option Instr :=
  match decodeBits nbits w with
  | .ok i => some i
  | .error _ => none

/-- The canonical command word of a command, every ignored bit 0 (30_encoding.md R54); a row that no word selects
has none. -/
def encode : Instr → Option CommandWord
  | .init p => some (commandWordOf true false p)
  | .tick => some (commandWordOf false true false)
  | .nop => some (commandWordOf false false false)
  | .sample _ => none
  | .update _ => none
  | .sync _ => none
  | .isHigh => none
  | .isLow => none
  | .state => none
  | .pressEv => none
  | .releaseEv => none

end Sys2Proof
end

