-- ==== Sys2Proof/Machine/State.lean ====
section
/-! DEFINITION. The state of DBF, its stops, and the state at power-on (10_state.md R13 to R20, R27). -/

namespace Sys2Proof.Machine

/-- DBF raises nothing: the complete table of exception causes is empty (60_exceptions.md R84). -/
inductive Fault where
  deriving DecidableEq, Repr

/-- Why a step has no meaning. -/
inductive Refusal where
  /-- Raised by `exec` for an instruction that has no meaning yet; no arm raises it. Safe. -/
  | notModelled (mnemonic : String)
  /-- Raised by TICK, NOP, SAMPLE, UPDATE and the output reads before the first INIT: "the model refuses it"
  (60_exceptions.md R93; 93_implementation_defined.md U1). Safe: it errs toward unprovable. -/
  | usedBeforeInit
  deriving DecidableEq, Repr

/-- What a consumer has read from an output port (10_state.md R21; codes of 30_encoding.md R51, R52). -/
inductive Reading where
  | isHigh (bit : Bool)
  | isLow (bit : Bool)
  | state (code : TernaryCode)
  | press (bit : Bool)
  | pressEv (bit : Bool)
  | releaseEv (bit : Bool)
  deriving DecidableEq, Repr

/-- The state: the instance's parameters, DBF's three registers (10_state.md R13), the levels on its input ports,
and the model's own fields. -/
structure State where
  /-- The parameters of the instance; nothing writes them (00_scope.md R5, R6, R7; log 1). -/
  cfg : Config
  /-- The sample history, bit 0 newest (10_state.md R14). -/
  buf : BitVec cfg.w
  /-- The press flag, 1 = Pressed (10_state.md R16). -/
  press : Bool
  /-- The synchronizer chain, bit 0 nearest the line (10_state.md R17). -/
  sync : BitVec cfg.nSync
  /-- The model's own: INIT has happened (10_state.md R26 (d); log 8). -/
  initialised : Bool
  /-- The levels on the input ports in this cycle, sampled at the coming edge (10_state.md R21; log 4). -/
  ports : Ports
  /-- The model's own: the levels the environment drives at the edges after the coming one (log 4). -/
  script : List Ports
  /-- The model's own: how many free levels have been drawn past the script (log 4). -/
  draws : Nat
  /-- The model's own: the consumer's last reading, none before its first (log 10). -/
  seen : Option Reading
  deriving DecidableEq, Repr

/-- Power-on. The spec gives `buf`, `press`, `sync` no value (10_state.md R27): 0 here (DESIGN CHOICE, log 6, log
7), and `buf` and `press` are not read until INIT. The input levels are 0 (DESIGN CHOICE, log 5). -/
def State.reset : State :=
  { cfg := Config.default
    buf := 0
    press := false
    sync := 0
    initialised := false
    ports := { init := false, tick := false, pullUpActive := false, raw := false }
    script := []
    draws := 0
    seen := none }

end Sys2Proof.Machine
end

