-- ==== Sys2Proof/Machine/Operands.lean ====
section
/-! DEFINITION. Operand assembly: the fill of INIT (40_debounced_input.md R55), the one-place shift (R56, R61) and
the sample a TICK takes (42_input_synchronizer.md R76). -/

namespace Sys2Proof.Machine

/-- `fill_W(p)`: all ones if `p`, else 0 (40_debounced_input.md R55). -/
def fill (w : Nat) (p : Bool) : BitVec w := if p then ones w else 0

/-- `shl_in_n(b, s) = ((b << 1) mod 2^n) | s` (40_debounced_input.md R56; the same shift at `N_SYNC` bits is the
SYNC step, 42_input_synchronizer.md R75). -/
def shlIn {n : Nat} (b : BitVec n) (bit : Bool) : BitVec n := (b <<< 1) ||| BitVec.ofNat n bit.toNat

/-- The output of the synchronizer: the last stage, or the line itself when `N_SYNC = 0`
(42_input_synchronizer.md R76). -/
def selectSample {n : Nat} (sync : BitVec n) (raw : Bool) : Bool :=
  if n = 0 then raw else sync.getLsbD (n - 1)

/-- The sample bit `s` of a TICK at the coming edge, from the pre-edge registers (42_input_synchronizer.md R76). -/
def sampleBit (s : State) : Bool := selectSample s.sync s.ports.raw

/-- The command word sampled at the coming edge (30_encoding.md R46). -/
def fetch (s : State) : CommandWord := s.ports.commandWord

end Sys2Proof.Machine
end

