-- ==== Sys2Proof/Machine/Flags.lean ====
section
/-! DEFINITION. The decoder of the shift register, the update of the press flag, the transition outputs and the
output ports (40_debounced_input.md R57 to R59; 41_sampler_transition.md R66, R71; 10_state.md R21, R24). -/

namespace Sys2Proof.Machine

/-- `is_high_W(b) = (b == ones(W))` (40_debounced_input.md R57). -/
def bufIsHigh {w : Nat} (b : BitVec w) : Bool := b == ones w

/-- `is_low_W(b) = (b == 0)` (40_debounced_input.md R58). -/
def bufIsLow {w : Nat} (b : BitVec w) : Bool := b == 0

/-- `tstate_W(b)` (40_debounced_input.md R59): unanimity, not majority (90_conflicts.md C3). -/
def tstate {w : Nat} (b : BitVec w) : Ternary :=
  if bufIsHigh b then .high else if bufIsLow b then .low else .indeterminate

/-- The code of the port `state = {is_high, is_low}` (30_encoding.md R52). -/
def stateCode {w : Nat} (b : BitVec w) : TernaryCode :=
  BitVec.ofBool (bufIsHigh b) ++ BitVec.ofBool (bufIsLow b)

/-- `upd(t, p)` (41_sampler_transition.md R66): the flag while Indeterminate is held (R74). -/
def upd (activeLow : Bool) (t : Ternary) (p : Bool) : Bool :=
  match t with
  | .low => activeLow
  | .high => !activeLow
  | .indeterminate => p

/-- `is_tick = (init == 0) & (tick == 1)` (41_sampler_transition.md R71). -/
def isTick (s : State) : Bool := !s.ports.init && s.ports.tick

/-- `press_next = upd(tstate_W(shl_in_W(buf, s)), press)` (41_sampler_transition.md R71). -/
def pressNext (s : State) : Bool := upd s.cfg.activeLow (tstate (shlIn s.buf (sampleBit s))) s.press

/-- The output `press_ev` (41_sampler_transition.md R71). -/
def pressEvent (s : State) : Bool := isTick s && !s.press && pressNext s

/-- The output `release_ev` (41_sampler_transition.md R71). -/
def releaseEvent (s : State) : Bool := isTick s && s.press && !pressNext s

/-- The output ports (10_state.md R21). -/
inductive OutPort where
  | isHigh
  | isLow
  | state
  | press
  | pressEv
  | releaseEv
  deriving DecidableEq, Repr

/-- What an output port carries in this cycle (10_state.md R18, R21, R24). -/
def portValue (port : OutPort) (s : State) : Reading :=
  match port with
  | .isHigh => .isHigh (bufIsHigh s.buf)
  | .isLow => .isLow (bufIsLow s.buf)
  | .state => .state (stateCode s.buf)
  | .press => .press s.press
  | .pressEv => .pressEv (pressEvent s)
  | .releaseEv => .releaseEv (releaseEvent s)

/-- When a read of a port has a meaning: after INIT (60_exceptions.md R93); the event outputs also in the cycle of
an INIT, where they are 0 whatever the registers hold (41_sampler_transition.md R71, 70_reset_and_hazards.md R100,
95_test_vectors.md V1; DEDUCED, safe, log 11). -/
def portReadable (port : OutPort) (s : State) : Bool :=
  match port with
  | .isHigh => s.initialised
  | .isLow => s.initialised
  | .state => s.initialised
  | .press => s.initialised
  | .pressEv => s.initialised || s.ports.init
  | .releaseEv => s.initialised || s.ports.init

/-- What a consumer sees at a port, `none` where the spec gives the read no meaning (60_exceptions.md R93). -/
def observe (port : OutPort) (s : State) : Option Reading :=
  if portReadable port s then some (portValue port s) else none

end Sys2Proof.Machine
end

