-- ==== Sys2Proof/Machine/Ops.lean ====
section
/-! DEFINITION. The named operations the meanings share. DBF has no memory (20_memory.md R31) and no exception to
take or return from (60_exceptions.md R84, R90), so there is no operation for either. -/

namespace Sys2Proof.Machine

/-- A use of the registers: it has its effect once INIT has happened, and is refused before (60_exceptions.md R93;
log 8). `t` is the state with the effect. -/
def afterInit (s t : State) : Host.Outcome State Fault Refusal :=
  if s.initialised then .next t else .refused .usedBeforeInit

/-- Commit a new buffer value together with the flag UPDATE gives for it: every write of `buf` by a command is
accompanied by UPDATE on the new value at the same edge (41_sampler_transition.md R67, R72; 40_debounced_input.md
R55). -/
def State.commit (s : State) (b : BitVec s.cfg.w) : State :=
  { s with buf := b, press := upd s.cfg.activeLow (tstate b) s.press }

/-- One step of the synchronizer chain (42_input_synchronizer.md R75); with `N_SYNC = 0` there is no chain (R77). -/
def State.syncStep (s : State) (raw : Bool) : State := { s with sync := shlIn s.sync raw }

/-- A consumer's read of an output port: it changes nothing of DBF (20_memory.md R37), and the consumer has seen
the value (log 10). -/
def readPort (port : OutPort) (s : State) : Host.Outcome State Fault Refusal :=
  match observe port s with
  | some r => .next { s with seen := some r }
  | none => .refused .usedBeforeInit

/-- The levels of the next cycle: those of the script, or, past it, free levels (log 4). -/
def nextPorts (s : State) : Ports :=
  match s.script with
  | p :: _ => p
  | [] => portsOfStimulus (Config.freeStimulus s.draws)

/-- How many free levels have been drawn once the next cycle has begun (log 4). -/
def nextDraws (s : State) : Nat :=
  match s.script with
  | _ :: _ => s.draws
  | [] => s.draws + 1

/-- The environment moves on to the next cycle (log 4). -/
def State.nextInputs (s : State) : State :=
  { s with ports := nextPorts s, script := s.script.tail, draws := nextDraws s }

/-- What closes an edge beside the command: SYNC with the line's level at that edge (10_state.md R29), and the
environment's next levels. -/
def State.closeEdge (s : State) (raw : Bool) : State := (s.syncStep raw).nextInputs

/-- The command word `cw` on the input ports of the coming edge, the line as it is. -/
def State.placeCommandWord (s : State) (cw : CommandWord) : State :=
  { s with ports := s.ports.withCommandWord cw }

end Sys2Proof.Machine
end

