-- ==== Sys2Proof/Machine/Commands.lean ====
section
/-! DEFINITION. The commands INIT, TICK and NOP: what each does to `buf` and `press`. The SYNC step of the same
edge belongs to the step (10_state.md R29). -/

namespace Sys2Proof.Machine

/-- INIT (40_debounced_input.md R55): the fill and the flag UPDATE gives for it, from any state
(70_reset_and_hazards.md R99, R106). -/
def execInit (p : Bool) (s : State) : Host.Outcome State Fault Refusal :=
  .next (State.commit { s with initialised := true } (fill s.cfg.w p))

/-- TICK (41_sampler_transition.md R67): SAMPLE, then UPDATE on the shifted buffer, at one edge. -/
def execTick (s : State) : Host.Outcome State Fault Refusal :=
  afterInit s (s.commit (shlIn s.buf (sampleBit s)))

/-- NOP (41_sampler_transition.md R68): `buf` and `press` hold. -/
def execNop (s : State) : Host.Outcome State Fault Refusal := afterInit s s

end Sys2Proof.Machine
end

