-- ==== Sys2Proof/Machine/MicroOps.lean ====
section
/-! DEFINITION. The micro-operations SAMPLE and UPDATE by themselves, and the SYNC step. -/

namespace Sys2Proof.Machine

/-- SAMPLE (40_debounced_input.md R56): "mutates `buffer` only". -/
def execSample (bit : Bool) (s : State) : Host.Outcome State Fault Refusal :=
  afterInit s { s with buf := shlIn s.buf bit }

/-- UPDATE (41_sampler_transition.md R66): the press flag from the ternary state. -/
def execUpdate (t : Ternary) (s : State) : Host.Outcome State Fault Refusal :=
  afterInit s { s with press := upd s.cfg.activeLow t s.press }

/-- SYNC (42_input_synchronizer.md R75), admitted before INIT as well (60_exceptions.md R93). -/
def execSync (raw : Bool) (s : State) : Host.Outcome State Fault Refusal := .next (s.syncStep raw)

end Sys2Proof.Machine
end

