-- ==== Sys2Proof/Machine/Outputs.lean ====
section
/-! DEFINITION. The reads of the output ports that have a row in the opcode table. -/

namespace Sys2Proof.Machine

/-- IS_HIGH (40_debounced_input.md R57). -/
def execIsHigh (s : State) : Host.Outcome State Fault Refusal := readPort .isHigh s

/-- IS_LOW (40_debounced_input.md R58). -/
def execIsLow (s : State) : Host.Outcome State Fault Refusal := readPort .isLow s

/-- STATE (40_debounced_input.md R59). -/
def execState (s : State) : Host.Outcome State Fault Refusal := readPort .state s

/-- PRESS_EV (41_sampler_transition.md R71). -/
def execPressEv (s : State) : Host.Outcome State Fault Refusal := readPort .pressEv s

/-- RELEASE_EV (41_sampler_transition.md R71). -/
def execReleaseEv (s : State) : Host.Outcome State Fault Refusal := readPort .releaseEv s

end Sys2Proof.Machine
end

