-- ==== Sys2Proof/Machine/Dispatch.lean ====
section
/-! DEFINITION. One arm per constructor of `Instr`. -/

namespace Sys2Proof.Machine

def exec (i : Instr) (s : State) : Host.Outcome State Fault Refusal :=
  match i with
  | .init p => Sys2Proof.Machine.execInit p s
  | .tick => Sys2Proof.Machine.execTick s
  | .nop => Sys2Proof.Machine.execNop s
  | .sample bit => Sys2Proof.Machine.execSample bit s
  | .update t => Sys2Proof.Machine.execUpdate t s
  | .sync raw => Sys2Proof.Machine.execSync raw s
  | .isHigh => Sys2Proof.Machine.execIsHigh s
  | .isLow => Sys2Proof.Machine.execIsLow s
  | .state => Sys2Proof.Machine.execState s
  | .pressEv => Sys2Proof.Machine.execPressEv s
  | .releaseEv => Sys2Proof.Machine.execReleaseEv s

end Sys2Proof.Machine
end

