-- ==== Sys2Proof/Machine/Step.lean ====
section
/-! DEFINITION. One step: one rising edge of `clk` (10_state.md R29). -/

namespace Sys2Proof.Machine

/-- One edge (10_state.md R29): the command that the sampled command word decodes to runs on the pre-edge registers,
and the SYNC step takes the level sampled at the same edge. TICK takes its sample from the pre-edge `sync`, which no
command writes, so the two together are the one simultaneous commit of R29. -/
def step (s : State) : Host.Outcome State Fault Refusal :=
  match exec (decode (fetch s)) s with
  | .next t => .next (t.closeEdge s.ports.raw)
  | .fault r => .fault r
  | .refused r => .refused r

/-- The command word `w` driven on the input ports of the coming edge, so that the next step runs it: DBF has no
instruction memory, its command is what the wires carry at the edge (10_state.md R22, 30_encoding.md R46; log 13). -/
def State.withFetchWord (s : State) (nbits w : Nat) : State :=
  s.placeCommandWord (tableCommandWord nbits w)

end Sys2Proof.Machine
end

