-- ==== Sys2Proof/Machine/TickLevel.lean ====
section
/-! DEFINITION. The tick level (00_scope.md R9): the document's own machine, a state `(buf, press)` over unsigned
integers (R10, R11), INIT with a Boolean and a tick that takes one sample; and which tick-level events a list of
clock edges stands for. It is written from the rules' integer pseudocode, beside the registers of `State`, so that
the two levels can be proved to agree. -/

namespace Sys2Proof.Machine

/-- The tick-level state, `buf` as the unsigned integer it denotes (00_scope.md R9, R10). -/
structure TickState where
  buf : Nat
  press : Bool
  deriving DecidableEq, Repr

/-- The tick level's two operations (00_scope.md R9); a NOP edge is not an event of this level. -/
inductive TickEvent where
  | init (p : Bool)
  | tick (bit : Bool)
  deriving DecidableEq, Repr

/-- `fill_W(p) = p ? ones(W) : 0`, with `ones(W) = 2^W - 1` (40_debounced_input.md R55; 00_scope.md R11). -/
def tickFill (w : Nat) (p : Bool) : Nat := if p then 2 ^ w - 1 else 0

/-- `shl_in_W(b, s) = (2*b + s) mod 2^W` (40_debounced_input.md R61). -/
def tickShift (w b : Nat) (bit : Bool) : Nat := (2 * b + bit.toNat) % 2 ^ w

/-- The flag after a buffer value is committed (41_sampler_transition.md R66), with Low tested first as the
document does (60_exceptions.md R89). -/
def tickFlag (c : Config) (b : Nat) (p : Bool) : Bool :=
  if b = 0 then c.activeLow else if b = 2 ^ c.w - 1 then !c.activeLow else p

/-- INIT (40_debounced_input.md R55) and one tick (41_sampler_transition.md R67) at the tick level. -/
def tickApply (c : Config) (x : TickState) (e : TickEvent) : TickState :=
  match e with
  | .init p => { buf := tickFill c.w p, press := tickFlag c (tickFill c.w p) x.press }
  | .tick bit => { buf := tickShift c.w x.buf bit, press := tickFlag c (tickShift c.w x.buf bit) x.press }

/-- The tick-level state after a list of events, oldest first. -/
def tickRun (c : Config) (x : TickState) (es : List TickEvent) : TickState := es.foldl (tickApply c) x

/-- The level a TICK at edge `k` samples: the line `N_SYNC` edges earlier, or, before that, a bit the chain held at
edge 0 (42_input_synchronizer.md R76, R81; 95_test_vectors.md V19). -/
def delayedLevel {n : Nat} (sync : BitVec n) (line : List Bool) (k : Nat) : Bool :=
  if k < n then sync.getLsbD (n - 1 - k) else line.getD (k - n) false

/-- The tick-level event of the edge numbered `k` with inputs `e`, if it is one (00_scope.md R9; 30_encoding.md R47
to R49). -/
def edgeEvent {n : Nat} (sync : BitVec n) (line : List Bool) (e : Ports) (k : Nat) : Option TickEvent :=
  if e.init then some (.init e.pullUpActive)
  else if e.tick then some (.tick (delayedLevel sync line k))
  else none

/-- The tick-level events of a list of edges, from a chain that holds `sync` at the first of them. -/
def tickEvents {n : Nat} (sync : BitVec n) (es : List Ports) : List TickEvent :=
  es.zipIdx.filterMap (fun x => edgeEvent sync (es.map Ports.raw) x.1 x.2)

/-- The sample of a tick. -/
def TickEvent.sample? (e : TickEvent) : Option Bool :=
  match e with
  | .init _ => none
  | .tick bit => some bit

/-- The samples `s_1, s_2, …` of the ticks among a list of edges, oldest first (10_state.md R15). -/
def tickSamples {n : Nat} (sync : BitVec n) (es : List Ports) : List Bool :=
  (tickEvents sync es).filterMap TickEvent.sample?

/-- The tick-level view of a state (00_scope.md R9). -/
def State.tickState (s : State) : TickState := { buf := s.buf.toNat, press := s.press }

end Sys2Proof.Machine
end

