-- ==== Sys2Proof/Machine/Assembler.lean ====
section
/-! DEFINITION. The assembler of 30_encoding.md R54, on abstract lines: one line is one clock edge.
A program has up to two readings: stimulus words at the clock level and events at the tick level. -/

namespace Sys2Proof.Machine

/-- `command ::= "INIT" bit | "TICK" | "NOP"` (30_encoding.md R54). -/
inductive AsmCommand where
  | init (p : Bool)
  | tick
  | nop
  deriving DecidableEq, Repr

/-- `line ::= command [ ", raw=" bit ]` (30_encoding.md R54). -/
structure AsmLine where
  command : AsmCommand
  raw : Option Bool
  deriving DecidableEq, Repr

/-- A line or a pseudo-instruction (30_encoding.md R54). SAMPLE is not a command and expands to nothing an edge
could carry, so it is none of these. -/
inductive AsmItem where
  | line (l : AsmLine)
  | tick (bit : Bool)
  | feed (bit : Bool) (n : Nat)
  | wait (n : Nat)
  deriving DecidableEq, Repr

/-- The instruction a command stands for. -/
def AsmCommand.instr (c : AsmCommand) : Instr :=
  match c with
  | .init p => .init p
  | .tick => .tick
  | .nop => .nop

/-- What a pseudo-instruction expands to: lines, and `TICK s`, which is a tick-level operation before it is a line
(30_encoding.md R54). -/
inductive AsmStep where
  | line (l : AsmLine)
  | tick (bit : Bool)
  deriving DecidableEq, Repr

/-- The expansion of a pseudo-instruction: `FEED s, n` is `n` times `TICK s`, `WAIT n` is `n` NOPs with `raw`
unchanged (30_encoding.md R54). -/
def AsmItem.expand (x : AsmItem) : List AsmStep :=
  match x with
  | .line l => [.line l]
  | .tick bit => [.tick bit]
  | .feed bit n => List.replicate n (.tick bit)
  | .wait n => List.replicate n (.line { command := .nop, raw := none })

/-- The line of a step at the clock level: `TICK s` is `TICK, raw=s` with `N_SYNC = 0`, and with a synchronizer it is
tick level only and has no line (30_encoding.md R54). -/
def AsmStep.line? (nSync : Nat) (x : AsmStep) : Option AsmLine :=
  match x with
  | .line l => some l
  | .tick bit => if nSync = 0 then some { command := .tick, raw := some bit } else none

/-- The events of a step at the tick level: `TICK s` is one tick with sample `s`, INIT is `init`, NOP is no event of
this level (30_encoding.md R54; 00_scope.md R9). The line `TICK` names no sample (DEDUCED, log 19). -/
def AsmStep.events? (x : AsmStep) : Option (List TickEvent) :=
  match x with
  | .line { command := .init p, raw := _ } => some [.init p]
  | .line { command := .tick, raw := _ } => none
  | .line { command := .nop, raw := _ } => some []
  | .tick bit => some [.tick bit]

/-- The stimulus word of a command and a level, ignored bits 0 (30_encoding.md R54). -/
def stimulusOf (c : AsmCommand) (raw : Bool) : StimulusWord :=
  match c with
  | .init p => commandWordOf true false p ++ BitVec.ofBool raw
  | .tick => commandWordOf false true false ++ BitVec.ofBool raw
  | .nop => commandWordOf false false false ++ BitVec.ofBool raw

/-- The stimulus words of a list of lines after a line whose level was `last`: a line that omits `raw=` keeps it;
`none` where the first line gives no level (30_encoding.md R54: "the first line must give it"). -/
def assembleFrom (last : Option Bool) (ls : List AsmLine) : Option (List StimulusWord) :=
  match ls with
  | [] => some []
  | l :: rest =>
    match l.raw.or last with
    | none => none
    | some raw => (assembleFrom (some raw) rest).map (fun ws => stimulusOf l.command raw :: ws)

/-- The stimulus words of a program for an instance with `N_SYNC = nSync`; `none` where a step has no line there, or
the first line gives no level (30_encoding.md R54). -/
def assemble (nSync : Nat) (xs : List AsmItem) : Option (List StimulusWord) :=
  ((xs.flatMap AsmItem.expand).mapM (AsmStep.line? nSync)).bind (assembleFrom none)

/-- The tick-level events of a program, for every `N_SYNC`; `none` where a line is TICK without a sample
(30_encoding.md R54; 00_scope.md R9). -/
def assembleEvents (xs : List AsmItem) : Option (List TickEvent) :=
  ((xs.flatMap AsmItem.expand).mapM AsmStep.events?).map List.flatten

end Sys2Proof.Machine
end

