-- ==== Sys2Proof/Safety.lean ====
section
/-! DEFINITION. Runs, what is observed of them, the duties of the environment as premises, and what a safe state is,
in the terms the statements use (10_state.md R30; 60_exceptions.md R92; 41_sampler_transition.md R72). -/

namespace Sys2Proof.Machine

/-- `k` edges, stopping at the first stop (10_state.md R30; 70_reset_and_hazards.md R110). -/
def run : Nat → State → Host.Outcome State Fault Refusal
  | 0, s => .next s
  | k + 1, s =>
    match step s with
    | .next t => run k t
    | .fault r => .fault r
    | .refused r => .refused r

/-- The state with the levels `es` on the input ports at the next edges, one entry an edge, in place of the script. -/
def State.drive (s : State) (es : List Ports) : State :=
  { s with ports := es.headD s.ports, script := es.tail }

/-- A program loaded from outside: its stimulus words on the input ports of the next edges (30_encoding.md R54; log
13). -/
def State.load (s : State) (ws : List StimulusWord) : State := s.drive (ws.map portsOfStimulus)

/-- What a consumer that reads one port in every cycle sees of a run, cycle by cycle (10_state.md R30). -/
def trace (port : OutPort) : Nat → State → List (Option Reading)
  | 0, _ => []
  | k + 1, s =>
    observe port s ::
      match step s with
      | .next t => trace port k t
      | .fault _ => []
      | .refused _ => []

/-- The flag agrees with a confirmed level (41_sampler_transition.md R72), where INIT has happened. -/
abbrev State.Agrees (s : State) : Prop :=
  s.initialised = true →
    (tstate s.buf = .low → s.press = s.cfg.activeLow) ∧ (tstate s.buf = .high → s.press = !s.cfg.activeLow)

/-- Duty E7: no INIT among these edges (60_exceptions.md R92; 70_reset_and_hazards.md R98 step 6). -/
abbrev NoInit (es : List Ports) : Prop := ∀ e ∈ es, e.init = false

/-- The duty of 70_reset_and_hazards.md R103: no tick among the first `n` edges, so that the chain holds levels of
the line. -/
abbrev QuietFor (n : Nat) (es : List Ports) : Prop := ∀ e ∈ es.take n, e.tick = false

/-- The line reads `level` at every one of these edges. -/
abbrev LineAt (level : Bool) (es : List Ports) : Prop := ∀ e ∈ es, e.raw = level

/-- Duty E5: every `period` edges one is a TICK, `phase` edges in (60_exceptions.md R92; 70_reset_and_hazards.md
R101). A premise only: nothing checks it (60_exceptions.md R85). -/
abbrev TicksEvery (period phase : Nat) (es : List Ports) : Prop :=
  ∀ x ∈ es.zipIdx, x.1.tick = true ↔ x.2 % period = phase

/-- No run of `n` consecutive samples at `level`. -/
abbrev NoRun (n : Nat) (level : Bool) (samples : List Bool) : Prop := ¬ List.replicate n level <:+: samples

end Sys2Proof.Machine
end

