-- ==== Sys2Proof/Certificates/Slice0/Obligations.lean ====
section
/-! DEFINITION. The statements about DBF. `s.initialised = true` is the premise "INIT has happened"
(60_exceptions.md R93); every statement is for every width, polarity and synchronizer depth that `s.cfg` holds. -/

open Sys2Proof Sys2Proof.Machine

/-! Encoding -/

/-- The three rows of the decode, by match and mask (30_encoding.md R47, R48, R49). -/
def Obligations.DecodeByMatchAndMask : Prop :=
  ∀ cw : CommandWord,
    (cw &&& 0b100#3 = 0b100#3 → decode cw = .init (cw.getLsbD 0)) ∧
    (cw &&& 0b110#3 = 0b010#3 → decode cw = .tick) ∧
    (cw &&& 0b110#3 = 0b000#3 → decode cw = .nop)

/-- The command word is the concatenation of the three ports (30_encoding.md R45). -/
def Obligations.CommandWordBitsAreThePorts : Prop :=
  ∀ p : Ports,
    p.commandWord.getLsbD 2 = p.init ∧ p.commandWord.getLsbD 1 = p.tick ∧ p.commandWord.getLsbD 0 = p.pullUpActive

/-- Words written out from the decode table of 30_encoding.md, `10x` and `11x` among them. -/
def Obligations.TableWordsDecodeAsWritten : Prop :=
  decode 0b000#3 = .nop ∧ decode 0b001#3 = .nop ∧ decode 0b010#3 = .tick ∧ decode 0b011#3 = .tick ∧
    decode 0b100#3 = .init false ∧ decode 0b101#3 = .init true ∧ decode 0b110#3 = .init false ∧
    decode 0b111#3 = .init true

/-- Decode and encode agree on the commands, no other row has a word, and every word decodes to what its canonical
form decodes to (30_encoding.md, opening paragraph, R53, R54). -/
def Obligations.EncodeAndDecodeAgree : Prop :=
  (∀ i : Instr, i.wellFormed = true → ∃ cw, encode i = some cw ∧ decode cw = i) ∧
  (∀ i : Instr, i.wellFormed = false → encode i = none) ∧
  (∀ cw : CommandWord, ∃ canonical, encode (decode cw) = some canonical ∧ decode canonical = decode cw)

/-- An assembled program decodes, edge by edge, to the commands it was written with, and the line has at each edge
the level the line of text gives, or else the level of the edge before (30_encoding.md R54). -/
def Obligations.AssembledProgramDecodesToItsCommands : Prop :=
  ∀ (ls : List AsmLine) (last : Option Bool) (ws : List StimulusWord), assembleFrom last ls = some ws →
    ws.length = ls.length ∧
    ∀ (k : Nat) (l : AsmLine) (x : StimulusWord), ls[k]? = some l → ws[k]? = some x →
      decode (portsOfStimulus x).commandWord = l.command.instr ∧
      some (portsOfStimulus x).raw = l.raw.or (if k = 0 then last else (ws[k - 1]?).map (fun y => (portsOfStimulus y).raw))

/-! The commands, the micro-operations and SYNC: each completes, and this is its whole effect -/

/-- INIT `p` from every state: the fill, the flag from the fill, nothing else (40_debounced_input.md R55). -/
def Obligations.InitFillsBufferAndSetsFlag : Prop :=
  ∀ (s : State) (p : Bool), ∃ (b : BitVec s.cfg.w) (q : Bool),
    exec (.init p) s = .next { s with buf := b, press := q, initialised := true } ∧
    b.toNat = (if p then 2 ^ s.cfg.w - 1 else 0) ∧ (∀ i < s.cfg.w, b.getLsbD i = p) ∧
    (q = true ↔ p ≠ s.cfg.activeLow) ∧ bufIsHigh b = p ∧ bufIsLow b = !p

/-- TICK: the sample enters at bit 0, every bit moves up one place, the oldest is discarded, and the flag follows
the SHIFTED buffer; nothing else changes (41_sampler_transition.md R67). -/
def Obligations.TickShiftsThenUpdates : Prop :=
  ∀ s : State, s.initialised = true → ∃ (b : BitVec s.cfg.w) (q : Bool),
    exec .tick s = .next { s with buf := b, press := q } ∧
    b.toNat = (2 * s.buf.toNat + (sampleBit s).toNat) % 2 ^ s.cfg.w ∧
    b.getLsbD 0 = sampleBit s ∧ (∀ i, 0 < i → i < s.cfg.w → b.getLsbD i = s.buf.getLsbD (i - 1)) ∧
    ((∀ i < s.cfg.w, b.getLsbD i = false) → q = s.cfg.activeLow) ∧
    ((∀ i < s.cfg.w, b.getLsbD i = true) → q = !s.cfg.activeLow) ∧
    ((∃ i < s.cfg.w, b.getLsbD i = true) → (∃ i < s.cfg.w, b.getLsbD i = false) → q = s.press)

/-- NOP holds everything (41_sampler_transition.md R68). -/
def Obligations.NopHoldsEverything : Prop :=
  ∀ s : State, s.initialised = true → exec .nop s = .next s

/-- SAMPLE: the one-place shift, and no effect on the flag or anything else (40_debounced_input.md R56, R61). -/
def Obligations.SampleShiftsInOneBit : Prop :=
  ∀ (s : State) (bit : Bool), s.initialised = true → ∃ b : BitVec s.cfg.w,
    exec (.sample bit) s = .next { s with buf := b } ∧
    b.toNat = (2 * s.buf.toNat + bit.toNat) % 2 ^ s.cfg.w ∧
    b.getLsbD 0 = bit ∧ (∀ i, 0 < i → i < s.cfg.w → b.getLsbD i = s.buf.getLsbD (i - 1))

/-- UPDATE: Low gives the meaning of Low, High the other, Indeterminate holds; nothing else changes, and a second
UPDATE with the same state changes nothing (41_sampler_transition.md R66). -/
def Obligations.UpdateSetsFlagFromTernary : Prop :=
  ∀ s : State, s.initialised = true →
    exec (.update .low) s = .next { s with press := s.cfg.activeLow } ∧
    exec (.update .high) s = .next { s with press := !s.cfg.activeLow } ∧
    exec (.update .indeterminate) s = .next s ∧
    ∀ (t : Ternary) (u : State), exec (.update t) s = .next u → exec (.update t) u = .next u

/-- SYNC, before INIT as after it: the line's level enters stage 0 and every stage takes the one before it; with
`N_SYNC = 0` nothing changes; nothing but `sync` is written (42_input_synchronizer.md R75). -/
def Obligations.SyncAdvancesTheChain : Prop :=
  ∀ (s : State) (raw : Bool), ∃ y : BitVec s.cfg.nSync,
    exec (.sync raw) s = .next { s with sync := y } ∧
    y.toNat = (2 * s.sync.toNat + raw.toNat) % 2 ^ s.cfg.nSync ∧
    (0 < s.cfg.nSync → y.getLsbD 0 = raw) ∧
    (∀ i, 0 < i → i < s.cfg.nSync → y.getLsbD i = s.sync.getLsbD (i - 1)) ∧
    (s.cfg.nSync = 0 → exec (.sync raw) s = .next s)

/-- The sample of a TICK is the last stage before the edge, or the line itself without a synchronizer
(42_input_synchronizer.md R76). -/
def Obligations.SampleIsLastStageOrLine : Prop :=
  ∀ s : State,
    (1 ≤ s.cfg.nSync → sampleBit s = s.sync.getLsbD (s.cfg.nSync - 1)) ∧
    (s.cfg.nSync = 0 → sampleBit s = s.ports.raw)

/-- TICK is SAMPLE and then UPDATE on the shifted buffer (41_sampler_transition.md R67). -/
def Obligations.TickIsSampleThenUpdate : Prop :=
  ∀ s : State, s.initialised = true → ∃ u t : State,
    exec (.sample (sampleBit s)) s = .next u ∧ exec (.update (tstate u.buf)) u = .next t ∧ exec .tick s = .next t

/-! The output reads: each completes, changes nothing of DBF, and the consumer has seen the value -/

/-- IS_HIGH: true exactly while every bit of `buf` is 1 (40_debounced_input.md R57). -/
def Obligations.IsHighReadsAllOnes : Prop :=
  ∀ s : State, s.initialised = true → ∃ h : Bool,
    exec .isHigh s = .next { s with seen := some (.isHigh h) } ∧
    (h = true ↔ ∀ i < s.cfg.w, s.buf.getLsbD i = true)

/-- IS_LOW: true exactly while `buf` is 0 (40_debounced_input.md R58). -/
def Obligations.IsLowReadsAllZeros : Prop :=
  ∀ s : State, s.initialised = true → ∃ h : Bool,
    exec .isLow s = .next { s with seen := some (.isLow h) } ∧
    (h = true ↔ ∀ i < s.cfg.w, s.buf.getLsbD i = false)

/-- STATE: `10` for all ones, `01` for all zeros, `00` for a mixed history; `11` never (40_debounced_input.md R59,
30_encoding.md R52). -/
def Obligations.StateReadsTernaryCode : Prop :=
  ∀ s : State, s.initialised = true → ∃ c : TernaryCode,
    exec .state s = .next { s with seen := some (.state c) } ∧
    (c = 0b10#2 ↔ ∀ i < s.cfg.w, s.buf.getLsbD i = true) ∧
    (c = 0b01#2 ↔ ∀ i < s.cfg.w, s.buf.getLsbD i = false) ∧
    (c = 0b00#2 ↔ (∃ i < s.cfg.w, s.buf.getLsbD i = true) ∧ ∃ i < s.cfg.w, s.buf.getLsbD i = false) ∧
    c ≠ 0b11#2

/-- PRESS_EV: 1 exactly when the coming edge is a TICK that takes the flag from Released to Pressed
(41_sampler_transition.md R71). -/
def Obligations.PressEventMarksPressingTick : Prop :=
  ∀ s : State, s.initialised = true → ∃ e : Bool,
    exec .pressEv s = .next { s with seen := some (.pressEv e) } ∧
    (e = true ↔ s.ports.init = false ∧ s.ports.tick = true ∧ s.press = false ∧
      ∃ t, exec .tick s = .next t ∧ t.press = true)

/-- RELEASE_EV: 1 exactly when the coming edge is a TICK that takes the flag from Pressed to Released
(41_sampler_transition.md R71). -/
def Obligations.ReleaseEventMarksReleasingTick : Prop :=
  ∀ s : State, s.initialised = true → ∃ e : Bool,
    exec .releaseEv s = .next { s with seen := some (.releaseEv e) } ∧
    (e = true ↔ s.ports.init = false ∧ s.ports.tick = true ∧ s.press = true ∧
      ∃ t, exec .tick s = .next t ∧ t.press = false)

/-- In the cycle of an INIT, the first one included, both event outputs are 0 (41_sampler_transition.md R71,
70_reset_and_hazards.md R100; that the cycle of the FIRST INIT is included is the model's inference, log 11). -/
def Obligations.EventsAreLowInInitCycles : Prop :=
  ∀ s : State, s.ports.init = true →
    exec .pressEv s = .next { s with seen := some (.pressEv false) } ∧
    exec .releaseEv s = .next { s with seen := some (.releaseEv false) }

/-- A read changes nothing of DBF or of its inputs, and a second read sees the same value (20_memory.md R37). -/
def Obligations.ReadsHaveNoSideEffect : Prop :=
  ∀ (port : OutPort) (s t : State), readPort port s = .next t →
    (∃ r, t = { s with seen := some r }) ∧ readPort port t = .next t ∧
    ∀ other : OutPort, observe other t = observe other s

/-- After an edge the port `press` shows the value that edge committed (20_memory.md R38). -/
def Obligations.PressPortShowsLastCommittedValue : Prop :=
  ∀ s t : State, step s = .next t → readPort .press t = .next { t with seen := some (.press t.press) }

/-! The step -/

/-- A step runs the decoded command on the pre-edge state; around it, SYNC takes the level of the same edge and the
environment moves on (10_state.md R29, 30_encoding.md R46; the inputs held in State are the model's, log 4). That a
refusal of `exec` is the whole step's, so that SYNC of a NOP edge before INIT is not performed, is the model's choice:
60_exceptions.md R93 as log 18 (DEDUCED) reads it. The fault clause is empty, as `Fault` has no constructor. -/
def Obligations.StepRunsTheDecodedCommand : Prop :=
  ∀ (s : State) (i : Instr), decode s.ports.commandWord = i →
    (∀ t, exec i s = .next t →
      step s = .next { t with
        sync := shlIn t.sync s.ports.raw, ports := nextPorts t, script := t.script.tail, draws := nextDraws t }) ∧
    (∀ r, exec i s = .refused r → step s = .refused r) ∧
    (∀ r, exec i s = .fault r → step s = .fault r)

/-- One edge, whole (10_state.md R29; 20_memory.md R36): from the pre-edge registers all three take their new values
at the same instant. -/
def Obligations.OneEdgeCommitsAllRegisters : Prop :=
  ∀ s : State, (s.initialised = true ∨ s.ports.init = true) →
    ∃ (b : BitVec s.cfg.w) (q : Bool) (y : BitVec s.cfg.nSync),
      step s = .next { s with
        buf := b, press := q, sync := y, initialised := true,
        ports := nextPorts s, script := s.script.tail, draws := nextDraws s } ∧
      (∀ i < s.cfg.nSync, y.getLsbD i = if i = 0 then s.ports.raw else s.sync.getLsbD (i - 1)) ∧
      (s.ports.init = true →
        (∀ i < s.cfg.w, b.getLsbD i = s.ports.pullUpActive) ∧ q = (s.ports.pullUpActive != s.cfg.activeLow)) ∧
      (s.ports.init = false → s.ports.tick = true →
        (∀ i < s.cfg.w, b.getLsbD i =
          if 0 < i then s.buf.getLsbD (i - 1)
          else if s.cfg.nSync = 0 then s.ports.raw
          else s.sync.getLsbD (s.cfg.nSync - 1)) ∧
        ((∀ i < s.cfg.w, b.getLsbD i = false) → q = s.cfg.activeLow) ∧
        ((∀ i < s.cfg.w, b.getLsbD i = true) → q = !s.cfg.activeLow) ∧
        ((∃ i < s.cfg.w, b.getLsbD i = true) → (∃ i < s.cfg.w, b.getLsbD i = false) → q = s.press)) ∧
      (s.ports.init = false → s.ports.tick = false → b = s.buf ∧ q = s.press)

/-- The levels of the next cycle: the script's, in order; past it a free draw, one more counted (the model's
inputs, log 4). -/
def Obligations.InputsFollowTheScript : Prop :=
  ∀ s t : State, step s = .next t →
    (∀ p ps, s.script = p :: ps → t.ports = p ∧ t.script = ps ∧ t.draws = s.draws) ∧
    (s.script = [] → t.ports = portsOfStimulus (Config.freeStimulus s.draws) ∧ t.script = [] ∧ t.draws = s.draws + 1)

/-- Before INIT: TICK, NOP and the output reads are refused; INIT and SYNC are admitted (60_exceptions.md R93). The
model's choices, each by inference: that SAMPLE and UPDATE by themselves are refused too (log 9), that the event outputs
are refused only outside INIT cycles (log 11), and that the whole step of an edge that is not INIT is refused, the SYNC
of a NOP edge with it, where R93 admits SYNC at every edge and 70_reset_and_hazards.md R98 step 3 lets edges pass before
INIT (log 18). -/
def Obligations.UseBeforeInitIsRefused : Prop :=
  ∀ s : State, s.initialised = false →
    exec .tick s = .refused .usedBeforeInit ∧ exec .nop s = .refused .usedBeforeInit ∧
    (∀ bit, exec (.sample bit) s = .refused .usedBeforeInit) ∧
    (∀ t, exec (.update t) s = .refused .usedBeforeInit) ∧
    exec .isHigh s = .refused .usedBeforeInit ∧ exec .isLow s = .refused .usedBeforeInit ∧
    exec .state s = .refused .usedBeforeInit ∧ readPort .press s = .refused .usedBeforeInit ∧
    (s.ports.init = false →
      exec .pressEv s = .refused .usedBeforeInit ∧ exec .releaseEv s = .refused .usedBeforeInit ∧
      step s = .refused .usedBeforeInit) ∧
    (∀ p, ∃ t, exec (.init p) s = .next t ∧ t.initialised = true) ∧
    (∀ raw, ∃ t, exec (.sync raw) s = .next t ∧ t.initialised = false)

/-- After INIT no edge ever stops, whatever the inputs, and no edge undoes INIT (60_exceptions.md R84, R93;
30_encoding.md R53; 70_reset_and_hazards.md R110); before it, exactly the INIT edges go through. That before it a NOP
edge does not, its SYNC with it, is the model's choice (log 18, DEDUCED from R93). That no step faults rests on `Fault`
having no constructor: DBF signals nothing (R84). -/
def Obligations.EdgesStopOnlyBeforeInit : Prop :=
  (∀ s : State, (∃ t, step s = .next t) ↔ (s.initialised = true ∨ s.ports.init = true)) ∧
  (∀ (k : Nat) (s : State), s.initialised = true → ∃ t, run k s = .next t ∧ t.initialised = true) ∧
  (∀ (s : State) (f : Fault), step s ≠ .fault f)

/-- What an INIT edge leaves in `buf` and `press` depends on no register: the whole edge is the same whatever `buf`,
`press` and the fact of an earlier INIT were (40_debounced_input.md R55; 70_reset_and_hazards.md R99, R106), and `buf`
and `press` after it are the same whatever `sync` held; `sync` itself takes its own SYNC step and keeps its history over
an INIT (42_input_synchronizer.md R80). Before INIT the contents of `buf` and `press` decide nothing (10_state.md
R27). -/
def Obligations.InitForgetsAllHistory : Prop :=
  (∀ (s : State) (b : BitVec s.cfg.w) (q f : Bool), s.ports.init = true →
    step { s with buf := b, press := q, initialised := f } = step s) ∧
  (∀ (s : State) (b : BitVec s.cfg.w) (q : Bool), s.initialised = false →
    step { s with buf := b, press := q } = step s) ∧
  (∀ (s : State) (y : BitVec s.cfg.nSync), s.ports.init = true → ∃ t u : State,
    step s = .next t ∧ step { s with sync := y } = .next u ∧ u.tickState = t.tickState)

/-- INIT wins over a simultaneous tick, and the ignored bits of the command word have no effect on an edge
(60_exceptions.md R89; 30_encoding.md R53). -/
def Obligations.InitWinsAndIgnoredBitsDoNothing : Prop :=
  (∀ (s : State) (x : Bool), s.ports.init = true → step { s with ports := { s.ports with tick := x } } = step s) ∧
  (∀ (s : State) (x : Bool), s.ports.init = false →
    step { s with ports := { s.ports with pullUpActive := x } } = step s)

/-- The parameters are fixed for the life of the instance (00_scope.md R5, R6, R7; that they stand in State is the
model's choice, log 1). -/
def Obligations.ParametersNeverChange : Prop :=
  (∀ (i : Instr) (s t : State), exec i s = .next t → t.cfg = s.cfg) ∧
  (∀ (k : Nat) (s t : State), run k s = .next t → t.cfg = s.cfg)

/-- A program loaded on the input ports runs word by word: the edge numbered `k` samples the levels of word `k`
(30_encoding.md R46, R54; that a program is loaded from outside is the model's choice, log 13). -/
def Obligations.LoadedWordsAreSampledInOrder : Prop :=
  ∀ (s t : State) (ws : List StimulusWord) (k : Nat) (x : StimulusWord), ws[k]? = some x →
    run k (s.load ws) = .next t → t.ports = portsOfStimulus x

/-- What a consumer that reads a port in every cycle sees is, cycle by cycle, that port in the state between two
edges (10_state.md R30; 20_memory.md R38). -/
def Obligations.TraceShowsThePortOfEachCycle : Prop :=
  ∀ (port : OutPort) (s t : State) (j k : Nat), j < k → run j s = .next t →
    (trace port k s)[j]? = some (observe port t)

/-! Reset and INIT -/

/-- Power-on holds no INIT, and no port shows a value: none of the six at `State.reset`, and none of them under any
input levels but the two event outputs in an INIT cycle (10_state.md R27; 70_reset_and_hazards.md R99, R100; those two
are 0 there by log 11, EventsAreLowInInitCycles, and `State.reset` is no INIT cycle by log 5, the model's choices). The
one instruction that ends the time before INIT is INIT. `W = 0` is no instance (00_scope.md R5). -/
def Obligations.PowerOnAwaitsInit : Prop :=
  State.reset.initialised = false ∧ (∀ port : OutPort, observe port State.reset = none) ∧
  (∀ (port : OutPort) (levels : Ports), levels.init = false ∨ (port ≠ .pressEv ∧ port ≠ .releaseEv) →
    observe port { State.reset with ports := levels } = none) ∧
  (∀ (s t : State) (i : Instr), s.initialised = false → exec i s = .next t →
    (t.initialised = true ↔ ∃ p, i = .init p)) ∧
  (∀ al n, Config.elaborate? 0 al n = none) ∧
  (∀ w al n, 0 < w → ∃ c, Config.elaborate? w al n = some c ∧ c.w = w ∧ c.activeLow = al ∧ c.nSync = n)

/-- The values after an INIT edge, in every configuration; `sync` takes the SYNC step of that edge and nothing of INIT
(10_state.md R28). -/
def Obligations.ValuesAfterInitEdge : Prop :=
  ∀ s : State, s.ports.init = true → ∃ t : State, step s = .next t ∧
    t.buf.toNat = (if s.ports.pullUpActive then 2 ^ s.cfg.w - 1 else 0) ∧
    observe .isHigh t = some (.isHigh s.ports.pullUpActive) ∧
    observe .isLow t = some (.isLow (!s.ports.pullUpActive)) ∧
    observe .state t = some (.state (if s.ports.pullUpActive then 0b10#2 else 0b01#2)) ∧
    (observe .press t = some (.press false) ↔ s.ports.pullUpActive = s.cfg.activeLow) ∧
    (observe .press t = some (.press true) ↔ s.ports.pullUpActive ≠ s.cfg.activeLow) ∧
    (∀ i < s.cfg.nSync, t.sync.getLsbD i = if i = 0 then s.ports.raw else s.sync.getLsbD (i - 1))

/-! Invariants -/

/-- EVERY STEP KEEPS IT: once INIT has happened, the flag agrees with a confirmed level (41_sampler_transition.md
R72). -/
def Obligations.FlagAgreementIsKeptByEveryStep : Prop :=
  ∀ s t : State, s.Agrees → step s = .next t → t.Agrees

/-- The power-on state meets the invariant of the flag. -/
def Obligations.FlagAgreementHoldsAtReset : Prop := State.reset.Agrees

/-- In every post-edge state from an INIT on, the flag agrees with a confirmed level, whatever the state before the
INIT and whatever the inputs after it (41_sampler_transition.md R72). -/
def Obligations.FlagAgreesFromInitOn : Prop :=
  ∀ (s t : State) (k : Nat), s.ports.init = true → run (k + 1) s = .next t →
    (tstate t.buf = .low → t.press = t.cfg.activeLow) ∧ (tstate t.buf = .high → t.press = !t.cfg.activeLow)

/-- No buffer is both all ones and all zeros, so the code `11` is never driven; both answers may be false
(40_debounced_input.md R60). -/
def Obligations.NeverBothHighAndLow : Prop :=
  (∀ (w : Nat) (b : BitVec w), 0 < w → ¬ (bufIsHigh b = true ∧ bufIsLow b = true) ∧ stateCode b ≠ 0b11#2) ∧
  (∀ w : Nat, 1 < w → ∃ b : BitVec w, bufIsHigh b = false ∧ bufIsLow b = false)

/-- Idempotence of a stable state, and the first sample of the opposite level leaves it at once
(40_debounced_input.md R63). -/
def Obligations.StableBufferIsIdempotent : Prop :=
  ∀ w : Nat, 0 < w →
    shlIn (ones w) true = ones w ∧ shlIn (0 : BitVec w) false = 0 ∧
    (shlIn (ones w) false).toNat = 2 ^ w - 2 ∧ (shlIn (0 : BitVec w) true).toNat = 1 ∧
    (1 < w → tstate (shlIn (ones w) false) = .indeterminate ∧ tstate (shlIn (0 : BitVec w) true) = .indeterminate)

/-! The flag and its events -/

/-- Stickiness: the flag changes only at an INIT or at a tick whose shifted buffer confirms the level of the new
value (41_sampler_transition.md R70). -/
def Obligations.FlagChangesOnlyOnConfirmedOpposite : Prop :=
  ∀ s t : State, step s = .next t → s.ports.init = false → t.press ≠ s.press →
    s.ports.tick = true ∧
    ((tstate t.buf = .low ∧ t.press = s.cfg.activeLow) ∨ (tstate t.buf = .high ∧ t.press = !s.cfg.activeLow))

/-- The event outputs are 1 in exactly the cycles whose closing edge is a tick that changes the flag, and never both
(41_sampler_transition.md R71). -/
def Obligations.EventsMarkFlagChanges : Prop :=
  ∀ s t : State, s.initialised = true → step s = .next t →
    (observe .pressEv s = some (.pressEv true) ↔
      decode (fetch s) = .tick ∧ s.press = false ∧ t.press = true) ∧
    (observe .releaseEv s = some (.releaseEv true) ↔
      decode (fetch s) = .tick ∧ s.press = true ∧ t.press = false) ∧
    ¬ (observe .pressEv s = some (.pressEv true) ∧ observe .releaseEv s = some (.releaseEv true))

/-- For `W ≥ 2` no edge but an INIT takes the state from one confirmed level to the other, so at most one bit of the
bus `state` changes at such an edge (70_reset_and_hazards.md R105). -/
def Obligations.TicksNeverJumpBetweenConfirmedLevels : Prop :=
  ∀ s t : State, step s = .next t → s.ports.init = false → 1 < s.cfg.w →
    ¬ (tstate s.buf = .high ∧ tstate t.buf = .low) ∧ ¬ (tstate s.buf = .low ∧ tstate t.buf = .high) ∧
    ((stateCode s.buf).getLsbD 0 = (stateCode t.buf).getLsbD 0 ∨ (stateCode s.buf).getLsbD 1 = (stateCode t.buf).getLsbD 1)

/-! The synchronizer over many edges -/

/-- The sample at an edge is the line's level `N_SYNC` edges earlier, or, before that, a bit of the chain at the
start: whatever the commands were (42_input_synchronizer.md R76, R80, R81). -/
def Obligations.SynchronizerDelaysByItsDepth : Prop :=
  ∀ (s t : State) (es : List Ports) (raw : Bool), run es.length (s.drive es) = .next t →
    selectSample t.sync raw = delayedLevel s.sync (es.map Ports.raw ++ [raw]) es.length

/-- The power-on contents of the chain are gone after `N_SYNC` edges (42_input_synchronizer.md R80). -/
def Obligations.ChainForgetsItsContents : Prop :=
  ∀ (s t u : State) (y : BitVec s.cfg.nSync) (es : List Ports), s.cfg.nSync ≤ es.length →
    run es.length (s.drive es) = .next t → run es.length (State.drive { s with sync := y } es) = .next u →
    t.sync.toNat = u.sync.toNat

/-- For every depth of the synchronizer and whatever it holds, every sequence of samples can occur after INIT: some
edges, without an INIT and without a tick in the first `N_SYNC` of them, take exactly these samples, and running them
leaves the `buf` and `press` of the tick-level machine fed with these samples (42_input_synchronizer.md R79;
00_scope.md R9). -/
def Obligations.EverySampleSequenceCanOccur : Prop :=
  ∀ (s : State) (samples : List Bool), s.initialised = true → ∃ (es : List Ports) (t : State),
    NoInit es ∧ QuietFor s.cfg.nSync es ∧ tickSamples s.sync es = samples ∧
    run es.length (s.drive es) = .next t ∧
    t.tickState = tickRun s.cfg s.tickState (samples.map TickEvent.tick)

/-! The two levels, and the laws of the window over whole runs -/

/-- The clock level refines the tick level: edges from an initialised state, or edges that begin with INIT, go
through, and leave the `buf` and `press` that the document's own machine reaches by the events those edges stand for
(00_scope.md R9; 42_input_synchronizer.md R79). -/
def Obligations.ClockLevelRefinesTickLevel : Prop :=
  ∀ (s : State) (es : List Ports), (s.initialised = true ∨ (es.head?).any Ports.init = true) →
    ∃ t : State, run es.length (s.drive es) = .next t ∧ t.initialised = true ∧
      t.tickState = tickRun s.cfg s.tickState (tickEvents s.sync es)

/-- Content of `buf` after an INIT and any further edges without one: the samples since, newest at bit 0, and the
fill above them (10_state.md R15). -/
def Obligations.BufferHoldsSamplesSinceInit : Prop :=
  ∀ (s : State) (e : Ports) (es : List Ports), e.init = true → NoInit es →
    ∃ t : State, run (es.length + 1) (s.drive (e :: es)) = .next t ∧
      ∀ i < s.cfg.w, t.buf.getLsbD i =
        if i < (tickSamples s.sync (e :: es)).length
        then (tickSamples s.sync (e :: es)).getD ((tickSamples s.sync (e :: es)).length - 1 - i) false
        else e.pullUpActive

/-- The window is the last `W` of the fill (`W` times) and the samples since INIT: `buf` is its concatenation, newest at
bit 0, and the state is its verdict (40_debounced_input.md R62). -/
def Obligations.TernaryStateIsTheWindowsVerdict : Prop :=
  ∀ (s : State) (e : Ports) (es : List Ports), e.init = true → NoInit es →
    ∃ t : State, run (es.length + 1) (s.drive (e :: es)) = .next t ∧
      ∀ window, window = (List.replicate s.cfg.w e.pullUpActive ++ tickSamples s.sync (e :: es)).drop
          (tickSamples s.sync (e :: es)).length →
        window.length = s.cfg.w ∧
        (∀ i < s.cfg.w, t.buf.getLsbD i = window.getD (s.cfg.w - 1 - i) false) ∧
        (tstate t.buf = .high ↔ ∀ x ∈ window, x = true) ∧
        (tstate t.buf = .low ↔ ∀ x ∈ window, x = false)

/-- Transition latency: from a stable buffer, `j ≤ W` samples of the other level give the stated values, and confirm
it exactly when `j = W` (40_debounced_input.md R64). -/
def Obligations.LatencyIsExactlyWSamples : Prop :=
  ∀ (s : State) (es : List Ports) (level : Bool), s.initialised = true → NoInit es →
    s.buf = fill s.cfg.w (!level) → (∀ x ∈ tickSamples s.sync es, x = level) →
    (tickSamples s.sync es).length ≤ s.cfg.w →
    ∃ t : State, run es.length (s.drive es) = .next t ∧
      (level = true → t.buf.toNat = 2 ^ (tickSamples s.sync es).length - 1) ∧
      (level = false → t.buf.toNat = (2 ^ s.cfg.w - 1) * 2 ^ (tickSamples s.sync es).length % 2 ^ s.cfg.w) ∧
      (tstate t.buf = (if level then .high else .low) ↔ (tickSamples s.sync es).length = s.cfg.w)

/-- From an arbitrary buffer `W` identical samples always suffice (40_debounced_input.md R64), and the flag then has
the meaning of their level (41_sampler_transition.md R66, R67, R72). -/
def Obligations.WIdenticalSamplesAlwaysConfirm : Prop :=
  ∀ (s : State) (es : List Ports) (level : Bool), s.initialised = true → NoInit es →
    (∀ x ∈ tickSamples s.sync es, x = level) → s.cfg.w ≤ (tickSamples s.sync es).length →
    ∃ t : State, run es.length (s.drive es) = .next t ∧ tstate t.buf = (if level then .high else .low) ∧
      t.press = (level != s.cfg.activeLow)

/-- Bounce rejection: `W` or more samples with no run of `W` identical ones leave the state Indeterminate, from any
buffer (40_debounced_input.md R65). -/
def Obligations.BouncingIsIndeterminate : Prop :=
  ∀ (s : State) (es : List Ports), s.initialised = true → NoInit es →
    s.cfg.w ≤ (tickSamples s.sync es).length →
    NoRun s.cfg.w true (tickSamples s.sync es) → NoRun s.cfg.w false (tickSamples s.sync es) →
    ∃ t : State, run es.length (s.drive es) = .next t ∧ tstate t.buf = .indeterminate

/-- Counted from a stable state whose meaning the flag has, samples with no run of `W` at the other level never
change the flag (40_debounced_input.md R65; 41_sampler_transition.md R70). -/
def Obligations.ShortPressNeverReachesTheFlag : Prop :=
  ∀ (s : State) (es : List Ports) (level : Bool), s.initialised = true → s.Agrees → NoInit es →
    s.buf = fill s.cfg.w level → NoRun s.cfg.w (!level) (tickSamples s.sync es) →
    ∃ t : State, run es.length (s.drive es) = .next t ∧ t.press = s.press

/-- Counted from a stable state whose meaning the flag has, samples of the other level change the flag exactly from
the `W`-th of them on (40_debounced_input.md R64; 95_test_vectors.md S6). -/
def Obligations.FlagTurnsExactlyAtTheWthSample : Prop :=
  ∀ (s : State) (es : List Ports) (level : Bool), s.initialised = true → s.Agrees → NoInit es →
    s.buf = fill s.cfg.w level → (∀ x ∈ tickSamples s.sync es, x = !level) →
    ∃ t : State, run es.length (s.drive es) = .next t ∧
      (t.press ≠ s.press ↔ s.cfg.w ≤ (tickSamples s.sync es).length)

/-- The shortest interval between two changes of the flag is `W` ticks: after a tick that changed it, fewer than `W`
ticks, without INIT, leave it as it is (70_reset_and_hazards.md R107). -/
def Obligations.FlagKeepsANewValueForWTicks : Prop :=
  ∀ (s u : State) (es : List Ports), step s = .next u → s.ports.init = false → u.press ≠ s.press →
    NoInit es → (tickSamples u.sync es).length < s.cfg.w →
    ∃ t : State, run es.length (u.drive es) = .next t ∧ t.press = u.press

/-- Without ticks and INITs `buf` and `press` hold for any number of edges (60_exceptions.md R97;
41_sampler_transition.md R68). -/
def Obligations.AnyNumberOfNopsHolds : Prop :=
  ∀ (s : State) (es : List Ports), s.initialised = true → (∀ e ∈ es, e.init = false ∧ e.tick = false) →
    ∃ t : State, run es.length (s.drive es) = .next t ∧ t.tickState = s.tickState

/-- With matched polarity, an idle line, and no tick before the chain holds the line's level, start-up reports no
press at any time, from any power-on state (41_sampler_transition.md R73; 70_reset_and_hazards.md R98, R103,
R104). -/
def Obligations.MatchedStartUpReportsNoPress : Prop :=
  ∀ (s : State) (e : Ports) (es : List Ports), e.init = true → e.pullUpActive = s.cfg.activeLow →
    NoInit es → QuietFor (s.cfg.nSync - 1) es → LineAt s.cfg.activeLow (e :: es) →
    ∃ t : State, run (es.length + 1) (s.drive (e :: es)) = .next t ∧ t.press = false ∧
      tstate t.buf = (if s.cfg.activeLow then .high else .low)

/-- From a change of the line to the change of the flag, in edges: with ticks every `period` edges, the line clean,
and `n0` the first edge that captures the new level, the flag turns at an edge `e` with
`N_SYNC + (W-1)*period ≤ e - n0 ≤ N_SYNC + W*period - 1` (42_input_synchronizer.md R81). -/
def Obligations.LineToFlagDelayIsBounded : Prop :=
  ∀ (s t : State) (old new : List Ports) (level : Bool) (period phase : Nat),
    s.initialised = true → s.Agrees → s.buf = fill s.cfg.w level →
    (∀ i < s.cfg.nSync, s.sync.getLsbD i = level) →
    0 < period → phase < period → NoInit (old ++ new) → TicksEvery period phase (old ++ new) →
    LineAt level old → LineAt (!level) new →
    run (old ++ new).length (s.drive (old ++ new)) = .next t →
    (new.length ≤ s.cfg.nSync + (s.cfg.w - 1) * period → t.press = s.press) ∧
    (s.cfg.nSync + s.cfg.w * period ≤ new.length → t.press ≠ s.press)

/-- The two readings of a program agree where both exist: its stimulus words, run on an instance with `N_SYNC = 0`
after INIT or from an INIT line on, leave the `buf` and `press` that its tick-level events give; with a synchronizer a
program with a `TICK s` in it, by itself or in a FEED, has no stimulus words (30_encoding.md R54; 00_scope.md R9; that
the line `TICK` names no tick-level sample is the model's inference, log 19; loading is the model's, log 13). -/
def Obligations.AssembledProgramRunsAsItsTicks : Prop :=
  (∀ (s : State) (xs : List AsmItem) (ws : List StimulusWord) (es : List TickEvent),
    (s.initialised = true ∨ ∃ p raw rest, xs = .line { command := .init p, raw := raw } :: rest) →
    s.cfg.nSync = 0 → assemble s.cfg.nSync xs = some ws → assembleEvents xs = some es →
    ∃ t : State, run ws.length (s.load ws) = .next t ∧ t.tickState = tickRun s.cfg s.tickState es) ∧
  (∀ (nSync : Nat) (xs : List AsmItem) (bit : Bool), 0 < nSync → AsmStep.tick bit ∈ xs.flatMap AsmItem.expand →
    assemble nSync xs = none)
end

