-- ==== Sys2Proof/Laws/State.lean ====
section
/-! SUPPORT. One lemma per field per update of `State`, so that no later proof unfolds a record update. -/

namespace Sys2Proof.Machine

variable (s : State)

@[simp] theorem commit_cfg (b : BitVec s.cfg.w) : (s.commit b).cfg = s.cfg := rfl
@[simp] theorem commit_buf (b : BitVec s.cfg.w) : (s.commit b).buf = b := rfl
@[simp] theorem commit_press (b : BitVec s.cfg.w) :
    (s.commit b).press = upd s.cfg.activeLow (tstate b) s.press := rfl
@[simp] theorem commit_sync (b : BitVec s.cfg.w) : (s.commit b).sync = s.sync := rfl
@[simp] theorem commit_initialised (b : BitVec s.cfg.w) : (s.commit b).initialised = s.initialised := rfl
@[simp] theorem commit_ports (b : BitVec s.cfg.w) : (s.commit b).ports = s.ports := rfl
@[simp] theorem commit_script (b : BitVec s.cfg.w) : (s.commit b).script = s.script := rfl
@[simp] theorem commit_draws (b : BitVec s.cfg.w) : (s.commit b).draws = s.draws := rfl
@[simp] theorem commit_seen (b : BitVec s.cfg.w) : (s.commit b).seen = s.seen := rfl

@[simp] theorem syncStep_cfg (raw : Bool) : (s.syncStep raw).cfg = s.cfg := rfl
@[simp] theorem syncStep_buf (raw : Bool) : (s.syncStep raw).buf = s.buf := rfl
@[simp] theorem syncStep_press (raw : Bool) : (s.syncStep raw).press = s.press := rfl
@[simp] theorem syncStep_sync (raw : Bool) : (s.syncStep raw).sync = shlIn s.sync raw := rfl
@[simp] theorem syncStep_initialised (raw : Bool) : (s.syncStep raw).initialised = s.initialised := rfl
@[simp] theorem syncStep_ports (raw : Bool) : (s.syncStep raw).ports = s.ports := rfl
@[simp] theorem syncStep_script (raw : Bool) : (s.syncStep raw).script = s.script := rfl
@[simp] theorem syncStep_draws (raw : Bool) : (s.syncStep raw).draws = s.draws := rfl
@[simp] theorem syncStep_seen (raw : Bool) : (s.syncStep raw).seen = s.seen := rfl

@[simp] theorem nextInputs_cfg : s.nextInputs.cfg = s.cfg := rfl
@[simp] theorem nextInputs_buf : s.nextInputs.buf = s.buf := rfl
@[simp] theorem nextInputs_press : s.nextInputs.press = s.press := rfl
@[simp] theorem nextInputs_sync : s.nextInputs.sync = s.sync := rfl
@[simp] theorem nextInputs_initialised : s.nextInputs.initialised = s.initialised := rfl
@[simp] theorem nextInputs_ports : s.nextInputs.ports = nextPorts s := rfl
@[simp] theorem nextInputs_script : s.nextInputs.script = s.script.tail := rfl
@[simp] theorem nextInputs_draws : s.nextInputs.draws = nextDraws s := rfl
@[simp] theorem nextInputs_seen : s.nextInputs.seen = s.seen := rfl

@[simp] theorem closeEdge_cfg (raw : Bool) : (s.closeEdge raw).cfg = s.cfg := rfl
@[simp] theorem closeEdge_buf (raw : Bool) : (s.closeEdge raw).buf = s.buf := rfl
@[simp] theorem closeEdge_press (raw : Bool) : (s.closeEdge raw).press = s.press := rfl
@[simp] theorem closeEdge_sync (raw : Bool) : (s.closeEdge raw).sync = shlIn s.sync raw := rfl
@[simp] theorem closeEdge_initialised (raw : Bool) : (s.closeEdge raw).initialised = s.initialised := rfl
@[simp] theorem closeEdge_ports (raw : Bool) : (s.closeEdge raw).ports = nextPorts s := rfl
@[simp] theorem closeEdge_script (raw : Bool) : (s.closeEdge raw).script = s.script.tail := rfl
@[simp] theorem closeEdge_draws (raw : Bool) : (s.closeEdge raw).draws = nextDraws s := rfl
@[simp] theorem closeEdge_seen (raw : Bool) : (s.closeEdge raw).seen = s.seen := rfl

@[simp] theorem placeCommandWord_cfg (cw : CommandWord) : (s.placeCommandWord cw).cfg = s.cfg := rfl
@[simp] theorem placeCommandWord_buf (cw : CommandWord) : (s.placeCommandWord cw).buf = s.buf := rfl
@[simp] theorem placeCommandWord_press (cw : CommandWord) : (s.placeCommandWord cw).press = s.press := rfl
@[simp] theorem placeCommandWord_sync (cw : CommandWord) : (s.placeCommandWord cw).sync = s.sync := rfl
@[simp] theorem placeCommandWord_initialised (cw : CommandWord) :
    (s.placeCommandWord cw).initialised = s.initialised := rfl
@[simp] theorem placeCommandWord_ports (cw : CommandWord) :
    (s.placeCommandWord cw).ports = s.ports.withCommandWord cw := rfl
@[simp] theorem placeCommandWord_script (cw : CommandWord) : (s.placeCommandWord cw).script = s.script := rfl
@[simp] theorem placeCommandWord_draws (cw : CommandWord) : (s.placeCommandWord cw).draws = s.draws := rfl
@[simp] theorem placeCommandWord_seen (cw : CommandWord) : (s.placeCommandWord cw).seen = s.seen := rfl

@[simp] theorem drive_cfg (es : List Ports) : (s.drive es).cfg = s.cfg := rfl
@[simp] theorem drive_buf (es : List Ports) : (s.drive es).buf = s.buf := rfl
@[simp] theorem drive_press (es : List Ports) : (s.drive es).press = s.press := rfl
@[simp] theorem drive_sync (es : List Ports) : (s.drive es).sync = s.sync := rfl
@[simp] theorem drive_initialised (es : List Ports) : (s.drive es).initialised = s.initialised := rfl
@[simp] theorem drive_ports_cons (e : Ports) (es : List Ports) : (s.drive (e :: es)).ports = e := rfl
@[simp] theorem drive_script_cons (e : Ports) (es : List Ports) : (s.drive (e :: es)).script = es := rfl
@[simp] theorem drive_draws (es : List Ports) : (s.drive es).draws = s.draws := rfl
@[simp] theorem drive_seen (es : List Ports) : (s.drive es).seen = s.seen := rfl

end Sys2Proof.Machine
end

