-- ==== Sys2Proof/Laws/Ops.lean ====
section
/-! SUPPORT. What each shared operation does, said once: the shift, the fill, the ternary decoder, the update, the
sample selection, the refusal before INIT, and a port read. -/

namespace Sys2Proof.Machine

/-! The shift -/

/-- The shift is the concatenation `{ b[n-2:0], s }` (40_debounced_input.md R61). -/
theorem shlIn_eq_shiftConcat {n : Nat} (b : BitVec n) (bit : Bool) : shlIn b bit = b.shiftConcat bit := by
  apply BitVec.eq_of_getLsbD_eq
  intro i hi
  simp only [shlIn, BitVec.getLsbD_or, BitVec.getLsbD_shiftLeft, BitVec.getLsbD_shiftConcat, BitVec.getLsbD_ofNat]
  rcases Nat.eq_zero_or_pos i with rfl | h
  · cases bit <;> simp [hi]
  · have h1 : ¬ i < 1 := by omega
    have h2 : Nat.testBit bit.toNat i = false := by
      apply Nat.testBit_lt_two_pow
      have : 2 ^ 1 ≤ 2 ^ i := Nat.pow_le_pow_right (by decide) h
      cases bit <;> simp [Nat.ne_of_gt h]
    simp [hi, h1, h2, Nat.ne_of_gt h]

/-- The newest bit is the bit shifted in, and every other bit moves up one place (40_debounced_input.md R56). -/
theorem getLsbD_shlIn {n : Nat} (b : BitVec n) (bit : Bool) (i : Nat) :
    (shlIn b bit).getLsbD i = (decide (i < n) && if i = 0 then bit else b.getLsbD (i - 1)) := by
  rw [shlIn_eq_shiftConcat, BitVec.getLsbD_shiftConcat]

/-- `shl_in_n(b, s) = (2*b + s) mod 2^n` (40_debounced_input.md R61). -/
theorem toNat_shlIn {n : Nat} (b : BitVec n) (bit : Bool) :
    (shlIn b bit).toNat = (2 * b.toNat + bit.toNat) % 2 ^ n := by
  rw [shlIn_eq_shiftConcat, BitVec.toNat_shiftConcat]
  rcases Nat.eq_zero_or_pos n with rfl | h
  · simp [Nat.mod_one]
  · rw [Nat.shiftLeft_eq, Nat.mul_comm]

/-! The fill -/

theorem getLsbD_fill {w : Nat} (p : Bool) (i : Nat) : (fill w p).getLsbD i = (decide (i < w) && p) := by
  cases p <;> simp [fill]

theorem toNat_fill (w : Nat) (p : Bool) : (fill w p).toNat = if p then 2 ^ w - 1 else 0 := by
  cases p <;> simp [fill]

/-! The ternary decoder -/

theorem bufIsHigh_iff {w : Nat} (b : BitVec w) : bufIsHigh b = true ↔ b = ones w := by simp [bufIsHigh]

theorem bufIsLow_iff {w : Nat} (b : BitVec w) : bufIsLow b = true ↔ b = 0 := by simp [bufIsLow]

theorem ones_ne_zero {w : Nat} (hw : 0 < w) : ones w ≠ 0 := by
  intro h
  have := congrArg (fun b => b.getLsbD 0) h
  simp [hw] at this

theorem tstate_high_iff {w : Nat} (b : BitVec w) : tstate b = .high ↔ b = ones w := by
  unfold tstate
  rw [← bufIsHigh_iff]
  by_cases h : bufIsHigh b = true <;> by_cases h' : bufIsLow b = true <;> simp [h, h']

theorem tstate_low_iff {w : Nat} (hw : 0 < w) (b : BitVec w) : tstate b = .low ↔ b = 0 := by
  unfold tstate
  rw [← bufIsLow_iff]
  by_cases h : bufIsHigh b = true
  · have h' : ¬ bufIsLow b = true := by
      rw [bufIsLow_iff, (bufIsHigh_iff b).1 h]; exact ones_ne_zero hw
    simp [h, h']
  · by_cases h' : bufIsLow b = true <;> simp [h, h']

theorem tstate_indeterminate_iff {w : Nat} (b : BitVec w) : tstate b = .indeterminate ↔ b ≠ ones w ∧ b ≠ 0 := by
  unfold tstate
  rw [Ne, Ne, ← bufIsHigh_iff, ← bufIsLow_iff]
  by_cases h : bufIsHigh b = true <;> by_cases h' : bufIsLow b = true <;> simp [h, h']

/-- A fill is never Indeterminate (40_debounced_input.md R55). -/
theorem tstate_fill {w : Nat} (hw : 0 < w) (p : Bool) : tstate (fill w p) = if p then .high else .low := by
  cases p
  · simp [fill, tstate_low_iff hw]
  · simp [fill, tstate_high_iff]

theorem bufIsHigh_fill {w : Nat} (hw : 0 < w) (p : Bool) : bufIsHigh (fill w p) = p := by
  cases p <;> simp [bufIsHigh, fill]; omega

theorem bufIsLow_fill {w : Nat} (hw : 0 < w) (p : Bool) : bufIsLow (fill w p) = !p := by
  cases p <;> simp [bufIsLow, fill]; omega

/-! The update -/

@[simp] theorem upd_low (al p : Bool) : upd al .low p = al := rfl
@[simp] theorem upd_high (al p : Bool) : upd al .high p = !al := rfl
@[simp] theorem upd_indeterminate (al p : Bool) : upd al .indeterminate p = p := rfl

/-- The flag of INIT does not read the old flag (40_debounced_input.md R55). -/
theorem upd_tstate_fill {w : Nat} (hw : 0 < w) (al p q : Bool) : upd al (tstate (fill w p)) q = (p != al) := by
  rw [tstate_fill hw]; cases p <;> cases al <;> rfl

/-! The sample -/

theorem selectSample_zero (sync : BitVec 0) (raw : Bool) : selectSample sync raw = raw := by simp [selectSample]

theorem selectSample_pos {n : Nat} (hn : 0 < n) (sync : BitVec n) (raw : Bool) :
    selectSample sync raw = sync.getLsbD (n - 1) := by simp [selectSample, Nat.ne_of_gt hn]

/-! The refusal before INIT -/

theorem afterInit_initialised {s : State} (h : s.initialised = true) (t : State) : afterInit s t = .next t := by
  simp [afterInit, h]

theorem afterInit_refused {s : State} (h : s.initialised = false) (t : State) :
    afterInit s t = .refused .usedBeforeInit := by simp [afterInit, h]

/-- Everything `afterInit` can answer with. -/
theorem afterInit_next {s t u : State} (h : afterInit s t = .next u) : s.initialised = true ∧ u = t := by
  unfold afterInit at h
  split at h
  · next hi => exact ⟨hi, by injection h with h; exact h.symm⟩
  · cases h

/-! A port read -/

/-- Everything a port read can answer with. -/
theorem readPort_next {port : OutPort} {s t : State} (h : readPort port s = .next t) :
    portReadable port s = true ∧ t = { s with seen := some (portValue port s) } := by
  unfold readPort observe at h
  by_cases hr : portReadable port s = true
  · simp only [hr, if_true] at h
    exact ⟨hr, by injection h with h; exact h.symm⟩
  · simp [hr] at h

theorem readPort_readable {port : OutPort} {s : State} (h : portReadable port s = true) :
    readPort port s = .next { s with seen := some (portValue port s) } := by
  simp [readPort, observe, h]

theorem readPort_refused {port : OutPort} {s : State} (h : portReadable port s = false) :
    readPort port s = .refused .usedBeforeInit := by
  simp [readPort, observe, h]

/-! The environment -/

theorem nextPorts_cons {s : State} {p : Ports} {ps : List Ports} (h : s.script = p :: ps) : nextPorts s = p := by
  simp [nextPorts, h]

theorem nextPorts_nil {s : State} (h : s.script = []) :
    nextPorts s = portsOfStimulus (Config.freeStimulus s.draws) := by simp [nextPorts, h]

end Sys2Proof.Machine
end

