-- ==== Sys2Proof/Laws/PerInstr.lean ====
section
/-! SUPPORT. Statements for all instructions, made per instruction. `EncodeDecodes`: a canonical command word decodes
to the instruction it encodes (30_encoding.md R47 to R49), and exactly the rows of kind `command` have one. -/

namespace Sys2Proof.Laws.EncodeDecodes

/-- The word of `i`, if it has one, decodes to `i`; and `i` has one exactly if it is well formed. -/
def Statement (i : Instr) : Prop :=
  (∀ cw, encode i = some cw → decode cw = i) ∧ (i.wellFormed = true ↔ (encode i).isSome = true)

theorem init (p : Bool) : Statement (.init p) := by
  cases p <;> exact ⟨by rintro _ ⟨⟩; rfl, by decide⟩
theorem tick : Statement .tick := ⟨by rintro _ ⟨⟩; rfl, by decide⟩
theorem nop : Statement .nop := ⟨by rintro _ ⟨⟩; rfl, by decide⟩
theorem sample (bit : Bool) : Statement (.sample bit) := ⟨by rintro _ ⟨⟩, by simp [Instr.wellFormed, Instr.kind, encode]⟩
theorem update (t : Ternary) : Statement (.update t) := ⟨by rintro _ ⟨⟩, by simp [Instr.wellFormed, Instr.kind, encode]⟩
theorem sync (raw : Bool) : Statement (.sync raw) := ⟨by rintro _ ⟨⟩, by simp [Instr.wellFormed, Instr.kind, encode]⟩
theorem isHigh : Statement .isHigh := ⟨by rintro _ ⟨⟩, by decide⟩
theorem isLow : Statement .isLow := ⟨by rintro _ ⟨⟩, by decide⟩
theorem state : Statement .state := ⟨by rintro _ ⟨⟩, by decide⟩
theorem pressEv : Statement .pressEv := ⟨by rintro _ ⟨⟩, by decide⟩
theorem releaseEv : Statement .releaseEv := ⟨by rintro _ ⟨⟩, by decide⟩

end Sys2Proof.Laws.EncodeDecodes
end

