-- ==== Sys2Proof/Laws/Step.lean ====
section
/-! SUPPORT. What the decode, an instruction and one edge can do, said once; runs, edge by edge. -/

namespace Sys2Proof.Machine

/-! Decode -/

/-- What a command word made of its three bits decodes to. -/
theorem decode_commandWordOf (init tick p : Bool) :
    decode (commandWordOf init tick p) = if init then .init p else if tick then .tick else .nop := by
  revert init tick p; decide

/-- What the command word on the ports decodes to. -/
theorem decode_fetch (s : State) :
    decode (fetch s) = if s.ports.init then .init s.ports.pullUpActive else if s.ports.tick then .tick else .nop := by
  rw [fetch, Ports.commandWord, decode_commandWordOf]

/-! One instruction -/

/-- Everything an instruction can do when it answers with a next state. -/
theorem exec_next {i : Instr} {s t : State} (h : exec i s = .next t) :
    (∃ p, i = .init p ∧ t = State.commit { s with initialised := true } (fill s.cfg.w p)) ∨
    (i = .tick ∧ s.initialised = true ∧ t = s.commit (shlIn s.buf (sampleBit s))) ∨
    (i = .nop ∧ s.initialised = true ∧ t = s) ∨
    (∃ b, i = .sample b ∧ s.initialised = true ∧ t = { s with buf := shlIn s.buf b }) ∨
    (∃ x, i = .update x ∧ s.initialised = true ∧ t = { s with press := upd s.cfg.activeLow x s.press }) ∨
    (∃ raw, i = .sync raw ∧ t = s.syncStep raw) ∨
    (∃ port, i.kind = .output ∧ portReadable port s = true ∧ t = { s with seen := some (portValue port s) }) := by
  cases i with
  | init p => injection h with h; exact .inl ⟨p, rfl, h.symm⟩
  | tick => obtain ⟨hi, ht⟩ := afterInit_next h; exact .inr (.inl ⟨rfl, hi, ht⟩)
  | nop => obtain ⟨hi, ht⟩ := afterInit_next h; exact .inr (.inr (.inl ⟨rfl, hi, ht⟩))
  | sample b => obtain ⟨hi, ht⟩ := afterInit_next h; exact .inr (.inr (.inr (.inl ⟨b, rfl, hi, ht⟩)))
  | update x => obtain ⟨hi, ht⟩ := afterInit_next h; exact .inr (.inr (.inr (.inr (.inl ⟨x, rfl, hi, ht⟩))))
  | sync raw => injection h with h; exact .inr (.inr (.inr (.inr (.inr (.inl ⟨raw, rfl, h.symm⟩)))))
  | isHigh => obtain ⟨hr, ht⟩ := readPort_next h; exact .inr (.inr (.inr (.inr (.inr (.inr ⟨_, rfl, hr, ht⟩)))))
  | isLow => obtain ⟨hr, ht⟩ := readPort_next h; exact .inr (.inr (.inr (.inr (.inr (.inr ⟨_, rfl, hr, ht⟩)))))
  | state => obtain ⟨hr, ht⟩ := readPort_next h; exact .inr (.inr (.inr (.inr (.inr (.inr ⟨_, rfl, hr, ht⟩)))))
  | pressEv => obtain ⟨hr, ht⟩ := readPort_next h; exact .inr (.inr (.inr (.inr (.inr (.inr ⟨_, rfl, hr, ht⟩)))))
  | releaseEv => obtain ⟨hr, ht⟩ := readPort_next h; exact .inr (.inr (.inr (.inr (.inr (.inr ⟨_, rfl, hr, ht⟩)))))

/-! One edge -/

/-- The state after an INIT edge. -/
theorem step_init {s : State} (h : s.ports.init = true) :
    step s = .next ((State.commit { s with initialised := true }
      (fill s.cfg.w s.ports.pullUpActive)).closeEdge s.ports.raw) := by
  simp [step, decode_fetch, h, exec, execInit]

/-- The state after a TICK edge. -/
theorem step_tick {s : State} (hi : s.initialised = true) (h : s.ports.init = false) (ht : s.ports.tick = true) :
    step s = .next ((s.commit (shlIn s.buf (sampleBit s))).closeEdge s.ports.raw) := by
  simp [step, decode_fetch, h, ht, exec, execTick, afterInit, hi]

/-- The state after a NOP edge. -/
theorem step_nop {s : State} (hi : s.initialised = true) (h : s.ports.init = false) (ht : s.ports.tick = false) :
    step s = .next (s.closeEdge s.ports.raw) := by
  simp [step, decode_fetch, h, ht, exec, execNop, afterInit, hi]

/-- An edge before INIT that is none itself is refused (60_exceptions.md R93). -/
theorem step_refused {s : State} (hi : s.initialised = false) (h : s.ports.init = false) :
    step s = .refused .usedBeforeInit := by
  cases ht : s.ports.tick <;> simp [step, decode_fetch, h, ht, exec, execNop, execTick, afterInit, hi]

/-- Everything an edge can do when it answers with a next state. -/
theorem step_next {s t : State} (h : step s = .next t) :
    (s.ports.init = true ∧ t = (State.commit { s with initialised := true }
      (fill s.cfg.w s.ports.pullUpActive)).closeEdge s.ports.raw) ∨
    (s.ports.init = false ∧ s.ports.tick = true ∧ s.initialised = true ∧
      t = (s.commit (shlIn s.buf (sampleBit s))).closeEdge s.ports.raw) ∨
    (s.ports.init = false ∧ s.ports.tick = false ∧ s.initialised = true ∧ t = s.closeEdge s.ports.raw) := by
  cases hp : s.ports.init
  · cases hi : s.initialised
    · rw [step_refused hi hp] at h; cases h
    · cases ht : s.ports.tick
      · rw [step_nop hi hp ht] at h; injection h with h; exact .inr (.inr ⟨rfl, rfl, rfl, h.symm⟩)
      · rw [step_tick hi hp ht] at h; injection h with h; exact .inr (.inl ⟨rfl, rfl, rfl, h.symm⟩)
  · rw [step_init hp] at h; injection h with h; exact .inl ⟨rfl, h.symm⟩

/-- What every edge does to the parameters, the chain and the inputs, whatever its command. -/
theorem step_next_frame {s t : State} (h : step s = .next t) :
    ∃ (b : BitVec s.cfg.w) (q : Bool), t = { s with
      buf := b, press := q, sync := shlIn s.sync s.ports.raw, initialised := true,
      ports := nextPorts s, script := s.script.tail, draws := nextDraws s } := by
  rcases step_next h with ⟨_, rfl⟩ | ⟨_, _, hi, rfl⟩ | ⟨_, _, hi, rfl⟩
  · exact ⟨_, _, rfl⟩
  · refine ⟨shlIn s.buf (sampleBit s), upd s.cfg.activeLow (tstate (shlIn s.buf (sampleBit s))) s.press, ?_⟩
    cases s; cases hi; rfl
  · refine ⟨s.buf, s.press, ?_⟩
    cases s; cases hi; rfl

/-! Runs -/

theorem run_succ {k : Nat} {s t : State} (h : step s = .next t) : run (k + 1) s = run k t := by simp [run, h]

/-- A run of `k + 1` edges that goes through is an edge that goes through and a run of `k`. -/
theorem run_succ_next {k : Nat} {s t : State} (h : run (k + 1) s = .next t) :
    ∃ u, step s = .next u ∧ run k u = .next t := by
  simp only [run] at h
  split at h
  · next u hu => exact ⟨u, hu, h⟩
  · cases h
  · cases h

/-- After an edge of a script, the rest of the script is driven. -/
theorem step_drive_cons {s u : State} {e x : Ports} {es : List Ports}
    (h : step (s.drive (e :: x :: es)) = .next u) : u = u.drive (x :: es) := by
  obtain ⟨b, q, rfl⟩ := step_next_frame h
  rfl

/-- A run over a script is its first edge and then a run over the rest. -/
theorem run_drive_cons {s u : State} {e : Ports} {es : List Ports} (h : step (s.drive (e :: es)) = .next u) :
    ∀ t, run (es.length + 1) (s.drive (e :: es)) = .next t ↔
      (es = [] ∧ t = u ∨ es ≠ [] ∧ run es.length (u.drive es) = .next t) := by
  intro t
  rw [run_succ h]
  cases es with
  | nil => simp [run, eq_comm]
  | cons x es => rw [← step_drive_cons h]; simp

end Sys2Proof.Machine
end

