-- ==== Sys2Proof/Laws/Run.lean ====
section
/-! SUPPORT. The two levels side by side: what one edge is at the tick level, and how a list of edges unfolds. -/

namespace Sys2Proof.Machine

/-- Seen from the next edge on, the delayed line is the line delayed from a chain one step on. -/
theorem delayedLevel_shlIn {n : Nat} (sync : BitVec n) (raw : Bool) (line : List Bool) (k : Nat) :
    delayedLevel (shlIn sync raw) line k = delayedLevel sync (raw :: line) (k + 1) := by
  unfold delayedLevel
  by_cases h : k < n
  · rw [if_pos h, getLsbD_shlIn]
    by_cases h' : k + 1 < n
    · have h1 : n - 1 - k < n := by omega
      have h2 : n - 1 - k ≠ 0 := by omega
      rw [if_pos h', if_neg h2, decide_eq_true h1, Bool.true_and]
      congr 1
    · have h1 : n - 1 - k = 0 := by omega
      have h2 : k + 1 - n = 0 := by omega
      rw [if_neg h', h1, h2]; simp; omega
  · have h' : ¬ k + 1 < n := by omega
    have h2 : k + 1 - n = (k - n) + 1 := by omega
    rw [if_neg h, if_neg h', h2]; simp

theorem selectSample_eq_delayedLevel {n : Nat} (sync : BitVec n) (raw : Bool) (line : List Bool) :
    selectSample sync raw = delayedLevel sync (raw :: line) 0 := by
  unfold selectSample delayedLevel
  by_cases h : n = 0
  · subst h; simp
  · simp [h, Nat.pos_of_ne_zero h]

/-- The tick-level event of an edge, from the chain before it. -/
def headEvent {n : Nat} (sync : BitVec n) (e : Ports) : Option TickEvent :=
  if e.init then some (.init e.pullUpActive)
  else if e.tick then some (.tick (selectSample sync e.raw))
  else none

/-- The tick-level event of a stimulus word, without a synchronizer (30_encoding.md R54). -/
theorem headEvent_stimulusOf (sync : BitVec 0) (c : AsmCommand) (raw : Bool) :
    headEvent sync (portsOfStimulus (stimulusOf c raw)) =
      match c with
      | .init p => some (.init p)
      | .tick => some (.tick raw)
      | .nop => none := by
  cases c with
  | init p => cases p <;> cases raw <;> rfl
  | tick => cases raw <;> rfl
  | nop => cases raw <;> rfl

/-- All an assembled first line can be: its own level or the one before it, its word, and the rest from that level on
(30_encoding.md R54). -/
theorem assembleFrom_cons_some {last : Option Bool} {l : AsmLine} {ls : List AsmLine} {ws : List StimulusWord}
    (h : assembleFrom last (l :: ls) = some ws) :
    ∃ raw rest, l.raw.or last = some raw ∧ assembleFrom (some raw) ls = some rest ∧
      ws = stimulusOf l.command raw :: rest := by
  simp only [assembleFrom] at h
  split at h
  · cases h
  · next raw hr =>
    obtain ⟨rest, hw, rfl⟩ := Option.map_eq_some_iff.1 h
    exact ⟨raw, rest, hr, hw, rfl⟩

theorem tickEvents_nil {n : Nat} (sync : BitVec n) : tickEvents sync [] = [] := rfl

/-- The events of a list of edges: the first edge's, then those of the rest from the chain one step on. -/
theorem tickEvents_cons {n : Nat} (sync : BitVec n) (e : Ports) (es : List Ports) :
    tickEvents sync (e :: es) = (headEvent sync e).toList ++ tickEvents (shlIn sync e.raw) es := by
  have h0 : edgeEvent sync ((e :: es).map Ports.raw) e 0 = headEvent sync e := by
    simp only [edgeEvent, headEvent, List.map_cons, ← selectSample_eq_delayedLevel]
  have hk : ∀ (x : Ports) (k : Nat),
      edgeEvent sync ((e :: es).map Ports.raw) x (k + 1) = edgeEvent (shlIn sync e.raw) (es.map Ports.raw) x k := by
    intro x k; simp only [edgeEvent, List.map_cons, delayedLevel_shlIn]
  unfold tickEvents
  rw [List.zipIdx_cons', List.filterMap_cons, h0, List.filterMap_map]
  have hf : ((fun x : Ports × Nat => edgeEvent sync ((e :: es).map Ports.raw) x.1 x.2) ∘
      Prod.map id (fun k => k + 1)) = fun x => edgeEvent (shlIn sync e.raw) (es.map Ports.raw) x.1 x.2 := by
    funext x; exact hk x.1 x.2
  rw [hf]
  cases headEvent sync e <;> rfl

theorem tickSamples_cons {n : Nat} (sync : BitVec n) (e : Ports) (es : List Ports) :
    tickSamples sync (e :: es) =
      ((headEvent sync e).bind TickEvent.sample?).toList ++ tickSamples (shlIn sync e.raw) es := by
  unfold tickSamples
  rw [tickEvents_cons, List.filterMap_append]
  congr 1
  cases headEvent sync e with
  | none => rfl
  | some x => simp only [Option.toList, List.filterMap_cons, List.filterMap_nil, Option.bind]; cases x.sample? <;> rfl

/-- Without an INIT the events are the ticks of the samples. -/
theorem tickEvents_eq_map_tick {n : Nat} (sync : BitVec n) {es : List Ports} (h : NoInit es) :
    tickEvents sync es = (tickSamples sync es).map TickEvent.tick := by
  induction es generalizing sync with
  | nil => rfl
  | cons e es ih =>
    have he : e.init = false := h e (by simp)
    rw [tickEvents_cons, tickSamples_cons, ih _ (fun x hx => h x (by simp [hx]))]
    cases ht : e.tick <;> simp [headEvent, he, ht, TickEvent.sample?]

/-- The flag UPDATE gives, at the tick level. -/
theorem tickFlag_toNat (c : Config) (b : BitVec c.w) (p : Bool) :
    tickFlag c b.toNat p = upd c.activeLow (tstate b) p := by
  have hz : b.toNat = 0 ↔ b = 0 := by rw [← BitVec.toNat_inj]; simp
  have ho : b.toNat = 2 ^ c.w - 1 ↔ b = ones c.w := by rw [← BitVec.toNat_inj]; simp
  unfold tickFlag
  by_cases h0 : b = 0
  · rw [if_pos (hz.2 h0), (tstate_low_iff c.w_pos b).2 h0, upd_low]
  · rw [if_neg (fun h => h0 (hz.1 h))]
    by_cases h1 : b = ones c.w
    · rw [if_pos (ho.2 h1), (tstate_high_iff b).2 h1, upd_high]
    · rw [if_neg (fun h => h1 (ho.1 h)), (tstate_indeterminate_iff b).2 ⟨h1, h0⟩, upd_indeterminate]

/-- Committing a buffer value, at the tick level. -/
theorem tickState_commit (s : State) (b : BitVec s.cfg.w) :
    (s.commit b).tickState = { buf := b.toNat, press := tickFlag s.cfg b.toNat s.press } := by
  simp [State.tickState, tickFlag_toNat]

/-- One edge is its tick-level event, if it is one, and otherwise nothing at that level (00_scope.md R9). -/
theorem step_tickState {s : State} (h : s.initialised = true ∨ s.ports.init = true) :
    ∃ t, step s = .next t ∧ t.initialised = true ∧ t.cfg = s.cfg ∧
      t.tickState = tickRun s.cfg s.tickState (headEvent s.sync s.ports).toList := by
  cases hp : s.ports.init
  · have hi : s.initialised = true := by simpa [hp] using h
    cases ht : s.ports.tick
    · exact ⟨_, step_nop hi hp ht, hi, rfl, by simp [headEvent, hp, ht, tickRun, State.tickState]⟩
    · refine ⟨_, step_tick hi hp ht, hi, rfl, ?_⟩
      show (s.commit (shlIn s.buf (sampleBit s))).tickState = _
      rw [tickState_commit]
      simp [headEvent, hp, ht, tickRun, tickApply, tickShift, State.tickState, sampleBit, toNat_shlIn]
  · refine ⟨_, step_init hp, rfl, rfl, ?_⟩
    show (State.commit { s with initialised := true } (fill s.cfg.w s.ports.pullUpActive)).tickState = _
    rw [tickState_commit]
    simp [headEvent, hp, tickRun, tickApply, tickFill, State.tickState, toNat_fill]

end Sys2Proof.Machine
end

