-- ==== Sys2Proof/Tests/Slice0.lean ====
section
/-! SUPPORT. Small tests, their expected values from 95_test_vectors.md and 30_encoding.md (named in each comment),
the refusals of the checks, and for every statement with hypotheses a concrete witness that meets them. -/

namespace Sys2Proof.Tests

open Sys2Proof Sys2Proof.Machine

/-! Helpers -/

/-- An initialised instance: `W`, `ACTIVE_LOW`, `N_SYNC` in `c`, the three registers, the input levels. -/
def inst (c : Config) (buf : Nat) (press : Bool) (sync : Nat) (ports : Ports) : State :=
  { cfg := c, buf := BitVec.ofNat c.w buf, press := press, sync := BitVec.ofNat c.nSync sync, initialised := true
    ports := ports, script := [], draws := 0, seen := none }

/-- `W = 8`, active low, no synchronizer. -/
def c8 : Config := { w := 8, activeLow := true, nSync := 0 }

/-- `W = 8`, active low, two stages. -/
def c8s : Config := { w := 8, activeLow := true, nSync := 2 }

/-- `W = 16`, active high, no synchronizer. -/
def c16 : Config := { w := 16, activeLow := false, nSync := 0 }

/-- A small instance for the witnesses: `W = 2`, active low, one stage. -/
def c2 : Config := { w := 2, activeLow := true, nSync := 1 }

def nop (raw : Bool) : Ports := { init := false, tick := false, pullUpActive := false, raw := raw }
def tick (raw : Bool) : Ports := { init := false, tick := true, pullUpActive := false, raw := raw }
def init (p raw : Bool) : Ports := { init := true, tick := false, pullUpActive := p, raw := raw }

/-- `(buf, press, sync)` of a next state. -/
def regs (o : Host.Outcome State Fault Refusal) : Option (Nat × Bool × Nat) :=
  match o with
  | .next t => some (t.buf.toNat, t.press, t.sync.toNat)
  | .fault _ => none
  | .refused _ => none

/-- The consumer's last reading in a next state. -/
def reading (o : Host.Outcome State Fault Refusal) : Option Reading :=
  match o with
  | .next t => t.seen
  | .fault _ => none
  | .refused _ => none

/-- The refusal, if it is one. -/
def refusal (o : Host.Outcome State Fault Refusal) : Option Refusal :=
  match o with
  | .next _ => none
  | .fault _ => none
  | .refused r => some r

/-! The instructions -/

/-- V1 row 1: `W = 8`, AL = 1, INIT 1 from power-on. -/
theorem test_init_pull_up : regs (exec (.init true) State.reset) = some (0xFF, false, 0) := by decide
/-- V1 row 7: `W = 16`, AL = 0, INIT 1, the mismatched polarity. -/
theorem test_init_mismatched : regs (exec (.init true) (inst c16 0 false 0 (nop false))) = some (0xFFFF, true, 0) := by
  decide
/-- V5 row 1: `0x80`, press 0, sample 0. -/
theorem test_tick_confirms_press : regs (step (inst c8 0x80 false 0 (tick false))) = some (0x00, true, 0) := by decide
/-- P3 edge 2: the sample is the old last stage, not the line. -/
theorem test_tick_samples_last_stage : regs (step (inst c8s 0xFF false 3 (tick false))) = some (0xFF, false, 2) := by
  decide
/-- V6 row 3: a NOP takes no sample. -/
theorem test_nop_takes_no_sample : regs (step (inst c8 0x80 false 0 (nop false))) = some (0x80, false, 0) := by decide
/-- V2: `0xC3`, sample 1. -/
theorem test_sample_8 : regs (exec (.sample true) (inst c8 0xC3 false 0 (nop false))) = some (0x87, false, 0) := by
  decide
/-- V2: `W = 16`, `0x8001`, sample 0. -/
theorem test_sample_16 : regs (exec (.sample false) (inst c16 0x8001 true 0 (nop false))) = some (2, true, 0) := by
  decide
/-- V4: AL = 1, Low, press 0. -/
theorem test_update_low : regs (exec (.update .low) (inst c8 0x3C false 0 (nop false))) = some (0x3C, true, 0) := by
  decide
/-- V4: AL = 0, Indeterminate, press 1. -/
theorem test_update_holds :
    regs (exec (.update .indeterminate) (inst c16 0x3C true 0 (nop false))) = some (0x3C, true, 0) := by decide
/-- V19, `N_SYNC = 2`, edge 0. -/
theorem test_sync_two_stages : regs (exec (.sync false) (inst c8s 0x3C true 3 (nop false))) = some (0x3C, true, 2) := by
  decide
/-- 60_exceptions.md R93: SYNC is admitted before INIT. -/
theorem test_sync_before_init : regs (exec (.sync true) State.reset) = some (0, false, 1) := by decide
/-- V3: `W = 16`, `0x00FF` is not High. -/
theorem test_is_high_16 : reading (exec .isHigh (inst c16 0x00FF false 0 (nop false))) = some (.isHigh false) := by
  decide
/-- V3: `0x80` is not Low. -/
theorem test_is_low_old_bit : reading (exec .isLow (inst c8 0x80 false 0 (nop false))) = some (.isLow false) := by
  decide
/-- V3: `0xFF`. -/
theorem test_state_high : reading (exec .state (inst c8 0xFF false 0 (nop false))) = some (.state 0b10#2) := by decide
/-- V3: `0x7F`. -/
theorem test_state_mixed : reading (exec .state (inst c8 0x7F false 0 (nop false))) = some (.state 0b00#2) := by decide
/-- V5 row 1. -/
theorem test_press_ev : reading (exec .pressEv (inst c8 0x80 false 0 (tick false))) = some (.pressEv true) := by decide
/-- P1 edge 0: 0 in the cycle of the first INIT. -/
theorem test_press_ev_first_init :
    reading (exec .pressEv { State.reset with ports := init true true }) = some (.pressEv false) := by decide
/-- V5 row 3. -/
theorem test_release_ev : reading (exec .releaseEv (inst c8 0x7F true 0 (tick true))) = some (.releaseEv true) := by
  decide
/-- V20 row 101: INIT raises no event. -/
theorem test_release_ev_init : reading (exec .releaseEv (inst c8 0x3C true 0 (init true false))) =
    some (.releaseEv false) := by decide

/-! The edge and the words -/

/-- P4 edge 0: stimulus `0xE`, INIT 1 wins over the tick. -/
theorem test_init_beats_tick : regs (step (inst c8s 0x3C true 0 (portsOfStimulus 0xE#4))) = some (0xFF, false, 0) := by
  decide
/-- 60_exceptions.md R93: a TICK before INIT is refused. -/
theorem test_tick_before_init : refusal (step (State.reset.withFetchWord 8 2)) = some .usedBeforeInit := by decide
/-- INIT is what runs first after power-on. -/
theorem test_first_word_is_init : regs (step (State.reset.withFetchWord 8 4)) = some (0x00, true, 0) := by decide

/-- The words of the decode table of 30_encoding.md, bit by bit. -/
theorem test_decode_words :
    decode 0b100#3 = .init false ∧ decode 0b101#3 = .init true ∧ decode 0b110#3 = .init false ∧
    decode 0b111#3 = .init true ∧ decode 0b010#3 = .tick ∧ decode 0b011#3 = .tick ∧ decode 0b000#3 = .nop ∧
    decode 0b001#3 = .nop := by decide
/-- The same words as the opcode table numbers them. -/
theorem test_table_words :
    decodeTableWord 8 4 = some (.init false) ∧ decodeTableWord 8 5 = some (.init true) ∧
    decodeTableWord 8 2 = some .tick ∧ decodeTableWord 8 0 = some .nop := by decide
/-- A bit above `cw[2]` is on no wire. -/
theorem test_decode_rejects_wide : decodeBits 8 8 = .error .widerThanCommandWord ∧ decodeTableWord 8 0x84 = none := by
  decide
/-- 30_encoding.md R54: the words of its examples. -/
theorem test_assemble :
    assemble 0 [.line { command := .init true, raw := some true }, .feed false 2, .wait 1, .tick true] =
      some [0xB#4, 0x4#4, 0x4#4, 0x0#4, 0x5#4] := by decide
/-- 30_encoding.md R54: the first line must give the level. -/
theorem test_assemble_needs_level : assemble 0 [.wait 1] = none := by decide
/-- 30_encoding.md R54: with a synchronizer `TICK s` is tick level only, and a line is a line as before. -/
theorem test_assemble_tick_level_only :
    assemble 2 [.line { command := .init true, raw := some true }, .tick false] = none ∧
    assemble 2 [.line { command := .init true, raw := some true }, .line { command := .tick, raw := some false }] =
      some [0xB#4, 0x4#4] := by decide
/-- 30_encoding.md R54, 00_scope.md R9: the tick-level events of V8 cut short, WAIT none of them. -/
theorem test_assemble_events :
    assembleEvents [.line { command := .init true, raw := none }, .tick false, .wait 3, .feed true 2] =
      some [.init true, .tick false, .tick true, .tick true] := by decide

/-! The checks refuse -/

theorem test_width_zero_refused : Config.elaborate? 0 true 2 = none := by decide
theorem test_width_one_admitted : (Config.elaborate? 1 true 0).map Config.w = some 1 := by decide
theorem test_width_32_not_shown : (Config.elaborate? 32 true 0).map Config.shownWidth = some false := by decide
theorem test_micro_op_is_no_command : Instr.wellFormed (.sample true) = false ∧ encode (.sample true) = none := by decide
theorem test_sync_is_no_command : Instr.wellFormed (.sync true) = false ∧ encode (.sync true) = none := by decide
theorem test_output_is_no_command : Instr.wellFormed .pressEv = false ∧ encode .pressEv = none := by decide
theorem test_tick_is_a_command : Instr.wellFormed .tick = true ∧ encode .tick = some 0b010#3 := by decide

/-! Witnesses: for each statement with hypotheses, a state and operands that meet them -/

/-- The initialised state most witnesses use: `W = 2`, one stage, all ones, Released, line high. -/
def idle : State := inst c2 3 false 1 (nop true)

/-- The same instance with the button held: all zeros, Pressed, line low. -/
def held : State := inst c2 0 true 0 (nop false)

/-- Meets `s.initialised = true`: TickShiftsThenUpdates, NopHoldsEverything, SampleShiftsInOneBit,
UpdateSetsFlagFromTernary, TickIsSampleThenUpdate, IsHighReadsAllOnes, IsLowReadsAllZeros, StateReadsTernaryCode,
PressEventMarksPressingTick, ReleaseEventMarksReleasingTick, OneEdgeCommitsAllRegisters,
EdgesStopOnlyBeforeInit, EverySampleSequenceCanOccur. -/
theorem witness_initialised : idle.initialised = true := by decide
/-- TickShiftsThenUpdates: each of its three flag clauses has a state (all zeros, all ones, mixed after the shift). -/
theorem witness_TickShiftsThenUpdates_clauses :
    shlIn (inst c8 0x80 false 0 (tick false)).buf false = 0 ∧ shlIn (inst c8 0x7F true 0 (tick true)).buf true = 0xFF ∧
    shlIn (inst c8 0x7F true 0 (tick true)).buf false = 0xFE := by decide
/-- DecodeByMatchAndMask: a word under each clause. -/
theorem witness_DecodeByMatchAndMask :
    0b110#3 &&& 0b100#3 = 0b100#3 ∧ 0b011#3 &&& 0b110#3 = 0b010#3 ∧ 0b001#3 &&& 0b110#3 = 0b000#3 := by decide
theorem witness_EncodeAndDecodeAgree :
    Instr.wellFormed (.init true) = true ∧ Instr.wellFormed (.update .low) = false := by decide
theorem witness_AssembledProgramDecodesToItsCommands :
    assembleFrom none [{ command := .init true, raw := some true }, { command := .tick, raw := none }] =
      some [0xB#4, 0x5#4] := by decide
/-- AssembledProgramRunsAsItsTicks: the first program of R54's table, with `N_SYNC = 0`, from an initialised state and
from power-on by an INIT; and `TICK s` among the steps where there is a synchronizer. -/
theorem witness_AssembledProgramRunsAsItsTicks :
    (inst c8 0xFF false 0 (nop true)).cfg.nSync = 0 ∧
    assemble 0 [.line { command := .init true, raw := some true }, .feed false 2, .wait 1] =
      some [0xB#4, 0x4#4, 0x4#4, 0x0#4] ∧
    assembleEvents [.line { command := .init true, raw := some true }, .feed false 2, .wait 1] =
      some [.init true, .tick false, .tick false] ∧
    0 < idle.cfg.nSync ∧ AsmStep.tick false ∈ [AsmItem.feed false 2].flatMap AsmItem.expand := by decide
theorem witness_SyncAdvancesTheChain : 0 < idle.cfg.nSync ∧ (inst c8 0 false 0 (nop false)).cfg.nSync = 0 := by decide
theorem witness_SampleIsLastStageOrLine : 1 ≤ c2.nSync ∧ c8.nSync = 0 := by decide
theorem witness_EventsAreLowInInitCycles : ({ State.reset with ports := init true true } : State).ports.init = true := by
  decide
theorem witness_ReadsHaveNoSideEffect : reading (readPort .state idle) = some (.state 0b10#2) := by decide
/-- Meets `step s = .next t`: PressPortShowsLastCommittedValue, InputsFollowTheScript (empty script). -/
theorem witness_step_next : regs (step idle) = some (3, false, 1) ∧ idle.script = [] := by decide
theorem witness_InputsFollowTheScript : (idle.drive [nop true, tick true]).script = [tick true] := by decide
theorem witness_StepRunsTheDecodedCommand :
    decode idle.ports.commandWord = .nop ∧ regs (exec .nop idle) = some (3, false, 1) ∧
    refusal (exec (decode State.reset.ports.commandWord) State.reset) = some .usedBeforeInit := by decide
theorem witness_OneEdgeCommitsAllRegisters :
    (idle.drive [init false true]).ports.init = true ∧ (idle.drive [tick true]).ports.tick = true ∧
    idle.ports.tick = false ∧ idle.ports.init = false := by decide
/-- UseBeforeInitIsRefused; InitForgetsAllHistory in its second clause; EdgesStopOnlyBeforeInit: a state whose edge stops. -/
theorem witness_UseBeforeInitIsRefused : State.reset.initialised = false ∧ State.reset.ports.init = false := by decide
/-- InitForgetsAllHistory in its first and third clauses, InitWinsAndIgnoredBitsDoNothing, ValuesAfterInitEdge: an INIT on the ports, and none. -/
theorem witness_init_on_ports : (idle.drive [init true true]).ports.init = true ∧ idle.ports.init = false := by decide
theorem witness_ParametersNeverChange : regs (exec .tick idle) = some (3, false, 1) ∧ regs (run 0 idle) = some (3, false, 1) := by
  decide
theorem witness_LoadedWordsAreSampledInOrder :
    [0x5#4, 0x0#4][1]? = some 0x0#4 ∧ regs (run 1 (idle.load [0x5#4, 0x0#4])) = some (3, false, 1) := by decide
theorem witness_TraceShowsThePortOfEachCycle : regs (run 1 idle) = some (3, false, 1) := by decide
/-- PowerOnAwaitsInit: levels with and without INIT, an instruction that completes before INIT, a width. -/
theorem witness_PowerOnAwaitsInit :
    (nop true).init = false ∧ OutPort.press ≠ .pressEv ∧ OutPort.press ≠ .releaseEv ∧
    State.reset.initialised = false ∧ regs (exec (.init true) State.reset) = some (0xFF, false, 0) ∧
    regs (exec (.sync true) State.reset) = some (0, false, 1) ∧ (0 : Nat) < 1 := by decide
theorem witness_FlagAgreementIsKeptByEveryStep : idle.Agrees ∧ regs (step idle) = some (3, false, 1) := by decide
/-- FlagAgreesFromInitOn, both clauses. -/
theorem witness_FlagAgreesFromInitOn :
    regs (run 1 (idle.drive [init false true])) = some (0, true, 1) ∧
    regs (run 1 (idle.drive [init true true])) = some (3, false, 1) := by decide
/-- NeverBothHighAndLow, StableBufferIsIdempotent, at the smallest widths. -/
theorem witness_widths : (0 : Nat) < 1 ∧ (1 : Nat) < 2 := by decide
/-- FlagChangesOnlyOnConfirmedOpposite and EventsMarkFlagChanges: an edge that changes the flag. -/
theorem witness_FlagChangesOnlyOnConfirmedOpposite :
    (inst c2 2 false 0 (tick true)).initialised = true ∧
    regs (step (inst c2 2 false 0 (tick true))) = some (0, true, 1) ∧ (tick true).init = false := by decide
theorem witness_TicksNeverJumpBetweenConfirmedLevels :
    regs (step (idle.drive [tick false])) = some (3, false, 0) ∧ (idle.drive [tick false]).ports.init = false ∧
    1 < idle.cfg.w := by decide
theorem witness_SynchronizerDelaysByItsDepth : regs (run 2 (idle.drive [nop false, tick true])) = some (2, false, 1) := by
  decide
theorem witness_ChainForgetsItsContents :
    idle.cfg.nSync ≤ [nop false].length ∧ regs (run 1 (idle.drive [nop false])) = some (3, false, 0) ∧
    regs (run 1 (State.drive { idle with sync := 0 } [nop false])) = some (3, false, 0) := by decide
/-- EverySampleSequenceCanOccur: inputs as its conclusion asks for, for two samples and one stage. -/
theorem witness_EverySampleSequenceCanOccur :
    idle.initialised = true ∧ NoInit [nop false, tick true, tick true] ∧
    QuietFor idle.cfg.nSync [nop false, tick true, tick true] ∧
    tickSamples idle.sync [nop false, tick true, tick true] = [false, true] ∧
    regs (run 3 (idle.drive [nop false, tick true, tick true])) = some (1, false, 1) := by decide
/-- ClockLevelRefinesTickLevel: from an initialised state, and from power-on by an INIT. -/
theorem witness_ClockLevelRefinesTickLevel :
    idle.initialised = true ∧ ([init true true].head?).any Ports.init = true := by decide
/-- BufferHoldsSamplesSinceInit, TernaryStateIsTheWindowsVerdict: an INIT and then a tick, one bit a sample and one
still the fill. -/
theorem witness_BufferHoldsSamplesSinceInit :
    (init true true).init = true ∧ NoInit [tick false] ∧
    tickSamples State.reset.sync [init true true, tick false] = [false] := by decide
/-- LatencyIsExactlyWSamples, both levels, at `j = W`. -/
theorem witness_LatencyIsExactlyWSamples :
    idle.initialised = true ∧ (tickSamples idle.sync [nop false, tick false, tick true]).length ≤ idle.cfg.w ∧
    idle.buf = fill idle.cfg.w (!false) ∧ tickSamples idle.sync [nop false, tick false, tick true] = [false, false] ∧
    held.buf = fill held.cfg.w (!true) ∧ held.initialised = true ∧ tickSamples held.sync [nop true, tick true, tick true] = [true, true] ∧
    NoInit [nop false, tick false, tick true] ∧ NoInit [nop true, tick true, tick true] := by decide
theorem witness_WIdenticalSamplesAlwaysConfirm :
    idle.initialised = true ∧ NoInit [tick true, tick true] ∧ (∀ x ∈ tickSamples idle.sync [tick true, tick true], x = true) ∧
    idle.cfg.w ≤ (tickSamples idle.sync [tick true, tick true]).length := by decide
theorem witness_BouncingIsIndeterminate :
    idle.initialised = true ∧ NoInit [tick false, tick true] ∧ idle.cfg.w ≤ (tickSamples idle.sync [tick false, tick true]).length ∧
    NoRun idle.cfg.w true (tickSamples idle.sync [tick false, tick true]) ∧
    NoRun idle.cfg.w false (tickSamples idle.sync [tick false, tick true]) := by decide
theorem witness_ShortPressNeverReachesTheFlag :
    idle.initialised = true ∧ idle.Agrees ∧ idle.buf = fill idle.cfg.w true ∧ NoInit [tick false, tick true] ∧
    NoRun idle.cfg.w (!true) (tickSamples idle.sync [tick false, tick true]) := by decide
theorem witness_FlagTurnsExactlyAtTheWthSample :
    idle.initialised = true ∧ idle.Agrees ∧ idle.buf = fill idle.cfg.w true ∧ NoInit [nop false, tick false, tick false] ∧
    (∀ x ∈ tickSamples idle.sync [nop false, tick false, tick false], x = !true) ∧
    idle.cfg.w ≤ (tickSamples idle.sync [nop false, tick false, tick false]).length := by decide
theorem witness_FlagKeepsANewValueForWTicks :
    regs (step (inst c2 2 false 0 (tick true))) = some (0, true, 1) ∧ NoInit [tick true] ∧
    (tickSamples (1#1) [tick true]).length < c2.w := by decide
theorem witness_AnyNumberOfNopsHolds :
    idle.initialised = true ∧ ∀ e ∈ [nop false, nop true], e.init = false ∧ e.tick = false := by decide
theorem witness_MatchedStartUpReportsNoPress :
    (init true true).init = true ∧ (init true true).pullUpActive = c8s.activeLow ∧
    NoInit [nop true, tick true, tick true] ∧ QuietFor (c8s.nSync - 1) [nop true, tick true, tick true] ∧
    LineAt c8s.activeLow [init true true, nop true, tick true, tick true] := by decide
/-- LineToFlagDelayIsBounded, its first clause at the bound (`N_SYNC + (W-1)*period = 2` edges). -/
theorem witness_LineToFlagDelayIsBounded_holds :
    idle.initialised = true ∧ idle.Agrees ∧ idle.buf = fill idle.cfg.w true ∧ (∀ i < idle.cfg.nSync, idle.sync.getLsbD i = true) ∧
    NoInit ([tick true] ++ [tick false, tick false]) ∧ TicksEvery 1 0 ([tick true] ++ [tick false, tick false]) ∧
    LineAt true [tick true] ∧ LineAt (!true) [tick false, tick false] ∧
    regs (run 3 (idle.drive ([tick true] ++ [tick false, tick false]))) = some (2, false, 0) := by decide
/-- Its second clause at the bound (`N_SYNC + W*period = 3` edges). -/
theorem witness_LineToFlagDelayIsBounded_turns :
    TicksEvery 1 0 ([tick true] ++ [tick false, tick false, tick false]) ∧
    LineAt (!true) [tick false, tick false, tick false] ∧
    regs (run 4 (idle.drive ([tick true] ++ [tick false, tick false, tick false]))) = some (0, true, 0) := by decide

end Sys2Proof.Tests
end

section
/-! PROOFS of the family 00_scope.md: the parameters of an instance are fixed (R5 to R7), and the clock level refines
the tick level (R9). -/

namespace Sys2Proof.Machine

/-! The parameters -/

theorem exec_cfg {i : Instr} {s t : State} (h : exec i s = .next t) : t.cfg = s.cfg := by
  rcases exec_next h with ⟨_, _, rfl⟩ | ⟨_, _, rfl⟩ | ⟨_, _, rfl⟩ | ⟨_, _, _, rfl⟩ | ⟨_, _, _, rfl⟩ | ⟨_, _, rfl⟩ |
    ⟨_, _, _, rfl⟩ <;> rfl

theorem step_cfg {s t : State} (h : step s = .next t) : t.cfg = s.cfg := by
  obtain ⟨_, _, rfl⟩ := step_next_frame h
  rfl

theorem run_cfg {k : Nat} {s t : State} (h : run k s = .next t) : t.cfg = s.cfg := by
  induction k generalizing s with
  | zero => injection h with h; rw [h]
  | succ k ih =>
    obtain ⟨u, hstep, hrun⟩ := run_succ_next h
    exact (ih hrun).trans (step_cfg hstep)

/-- Settles O29: an instruction by its inversion lemma, a run by induction on its edges. -/
theorem parametersNeverChange : Obligations.ParametersNeverChange :=
  ⟨fun _ _ _ => exec_cfg, fun _ _ _ => run_cfg⟩

/-! The refinement -/

/-- After an edge of a script the rest of it is driven, also where nothing is left: then the edge has drawn free levels
and `drive []` keeps them. -/
theorem eq_drive_of_step_drive_cons {s u : State} {e : Ports} {es : List Ports}
    (h : step (s.drive (e :: es)) = .next u) : u = u.drive es := by
  cases es with
  | nil =>
    obtain ⟨_, _, rfl⟩ := step_next_frame h
    rfl
  | cons x es => exact step_drive_cons h

/-- The chain after an edge is one SYNC step on (42_input_synchronizer.md R75). It is stated through the events because
the types of the two chains differ, `t.cfg` being only provably `s.cfg`. -/
theorem tickEvents_sync_of_step {s t : State} (h : step s = .next t) (es : List Ports) :
    tickEvents t.sync es = tickEvents (shlIn s.sync s.ports.raw) es := by
  obtain ⟨_, _, rfl⟩ := step_next_frame h
  rfl

theorem tickRun_append (c : Config) (x : TickState) (es fs : List TickEvent) :
    tickRun c x (es ++ fs) = tickRun c (tickRun c x es) fs :=
  List.foldl_append

/-- The simulation over a whole script: every edge is the tick-level event it stands for (`step_tickState`), and after
the first one INIT has happened, so that the induction goes on by the left side of its premise. -/
theorem run_drive_tickState (es : List Ports) (s : State)
    (h : s.initialised = true ∨ (es.head?).any Ports.init = true) :
    ∃ t, run es.length (s.drive es) = .next t ∧ t.initialised = true ∧
      t.tickState = tickRun s.cfg s.tickState (tickEvents s.sync es) := by
  induction es generalizing s with
  | nil =>
    have hi : s.initialised = true := by simpa using h
    exact ⟨s.drive [], rfl, hi, rfl⟩
  | cons e es ih =>
    obtain ⟨u, hstep, hinit, hcfg, htick⟩ := step_tickState (s := s.drive (e :: es)) (by simpa using h)
    obtain ⟨t, hrun, htinit, httick⟩ := ih u (.inl hinit)
    refine ⟨t, ?_, htinit, ?_⟩
    · rw [List.length_cons, run_succ hstep, eq_drive_of_step_drive_cons hstep]
      exact hrun
    · calc t.tickState
          = tickRun u.cfg u.tickState (tickEvents u.sync es) := httick
        _ = tickRun s.cfg u.tickState (tickEvents (shlIn s.sync e.raw) es) := by
            rw [tickEvents_sync_of_step hstep, hcfg]; rfl
        _ = tickRun s.cfg (tickRun s.cfg s.tickState (headEvent s.sync e).toList)
              (tickEvents (shlIn s.sync e.raw) es) := by rw [htick]; rfl
        _ = tickRun s.cfg s.tickState (tickEvents s.sync (e :: es)) := by
            rw [tickEvents_cons, tickRun_append]

/-- Settles O45, by the simulation over the edges of the script. -/
theorem clockLevelRefinesTickLevel : Obligations.ClockLevelRefinesTickLevel :=
  fun s es h => run_drive_tickState es s h

end Sys2Proof.Machine
end

section
/-! PROOFS of the family 10_state.md: what one edge commits (R29), the values after INIT (R28) and before it (R27), the
content of `buf` (R15), and the cycles a trace shows (R30). -/

namespace Sys2Proof.Machine

/-! One edge and the command it runs -/

theorem step_of_exec_next {s t : State} (h : exec (decode (fetch s)) s = .next t) :
    step s = .next (t.closeEdge s.ports.raw) := by simp [step, h]

theorem step_of_exec_refused {s : State} {r : Refusal} (h : exec (decode (fetch s)) s = .refused r) :
    step s = .refused r := by simp [step, h]

theorem step_of_exec_fault {s : State} {r : Fault} (h : exec (decode (fetch s)) s = .fault r) :
    step s = .fault r := by simp [step, h]

/-- Settles O22: one rule of the step for each of the three outcomes of `exec`. -/
theorem stepRunsTheDecodedCommand : Obligations.StepRunsTheDecodedCommand := by
  rintro s _ rfl
  exact ⟨fun _ h => step_of_exec_next h, fun _ h => step_of_exec_refused h, fun _ h => step_of_exec_fault h⟩

/-! The bits of a shifted buffer, and the flag UPDATE gives by the bits -/

theorem getLsbD_shlIn_of_lt {n i : Nat} (b : BitVec n) (bit : Bool) (hi : i < n) :
    (shlIn b bit).getLsbD i = if i = 0 then bit else b.getLsbD (i - 1) := by
  rw [getLsbD_shlIn, decide_eq_true hi, Bool.true_and]

theorem tstate_high_iff_bits {w : Nat} (b : BitVec w) : tstate b = .high ↔ ∀ i < w, b.getLsbD i = true := by
  rw [tstate_high_iff]
  constructor
  · rintro rfl i hi
    simp [hi]
  · intro h
    apply BitVec.eq_of_getLsbD_eq
    intro i hi
    simp [h i hi, hi]

theorem tstate_low_iff_bits {w : Nat} (hw : 0 < w) (b : BitVec w) :
    tstate b = .low ↔ ∀ i < w, b.getLsbD i = false := by
  rw [tstate_low_iff hw]
  constructor
  · rintro rfl i _
    simp
  · intro h
    apply BitVec.eq_of_getLsbD_eq
    intro i hi
    simp [h i hi]

theorem tstate_indeterminate_of_mixed {w : Nat} {b : BitVec w} (hone : ∃ i < w, b.getLsbD i = true)
    (hzero : ∃ i < w, b.getLsbD i = false) : tstate b = .indeterminate := by
  obtain ⟨i, hi, hbi⟩ := hone
  obtain ⟨j, hj, hbj⟩ := hzero
  have hw : 0 < w := by omega
  cases ht : tstate b with
  | high => simp [(tstate_high_iff_bits b).1 ht j hj] at hbj
  | low => simp [(tstate_low_iff_bits hw b).1 ht i hi] at hbi
  | indeterminate => rfl

/-- The flag after a buffer value is committed, by the bits of that value (41_sampler_transition.md R66). -/
theorem upd_tstate_by_bits {w : Nat} (hw : 0 < w) (b : BitVec w) (al p : Bool) :
    ((∀ i < w, b.getLsbD i = false) → upd al (tstate b) p = al) ∧
    ((∀ i < w, b.getLsbD i = true) → upd al (tstate b) p = !al) ∧
    ((∃ i < w, b.getLsbD i = true) → (∃ i < w, b.getLsbD i = false) → upd al (tstate b) p = p) := by
  refine ⟨fun h => ?_, fun h => ?_, fun hone hzero => ?_⟩
  · rw [(tstate_low_iff_bits hw b).2 h, upd_low]
  · rw [(tstate_high_iff_bits b).2 h, upd_high]
  · rw [tstate_indeterminate_of_mixed hone hzero, upd_indeterminate]

/-! One edge, register by register -/

/-- What closes an edge, as one record: where INIT has happened the mark of it may be written again. -/
theorem closeEdge_eq {s : State} (hi : s.initialised = true) (raw : Bool) :
    s.closeEdge raw = { s with
      sync := shlIn s.sync raw, initialised := true,
      ports := nextPorts s, script := s.script.tail, draws := nextDraws s } := by
  cases s
  cases hi
  rfl

/-- Settles O23, by the command of the edge; the chain takes the same step under all three. -/
theorem oneEdgeCommitsAllRegisters : Obligations.OneEdgeCommitsAllRegisters := by
  intro s h
  have hchain : ∀ i < s.cfg.nSync,
      (shlIn s.sync s.ports.raw).getLsbD i = if i = 0 then s.ports.raw else s.sync.getLsbD (i - 1) :=
    fun i hi => getLsbD_shlIn_of_lt s.sync s.ports.raw hi
  cases hp : s.ports.init
  case true =>
    refine ⟨fill s.cfg.w s.ports.pullUpActive, _, _, step_init hp, hchain,
      fun _ => ⟨fun i hi => ?_, ?_⟩, by simp, by simp⟩
    · rw [getLsbD_fill, decide_eq_true hi, Bool.true_and]
    · exact upd_tstate_fill s.cfg.w_pos _ _ _
  case false =>
    have hinit : s.initialised = true := by simpa [hp] using h
    cases ht : s.ports.tick
    case true =>
      refine ⟨shlIn s.buf (sampleBit s), pressNext s, _, ?_, hchain, by simp, fun _ _ => ⟨fun i hi => ?_, ?_⟩, by simp⟩
      · rw [step_tick hinit hp ht, closeEdge_eq (s := s.commit _) hinit]
        rfl
      · rw [getLsbD_shlIn_of_lt _ _ hi, sampleBit, selectSample]
        cases i <;> simp
      · exact upd_tstate_by_bits s.cfg.w_pos _ _ _
    case false =>
      refine ⟨s.buf, s.press, _, ?_, hchain, by simp, by simp, fun _ _ => ⟨rfl, rfl⟩⟩
      rw [step_nop hinit hp ht, closeEdge_eq hinit]

/-! What a consumer sees -/

theorem observe_of_initialised {s : State} (h : s.initialised = true) (port : OutPort) :
    observe port s = some (portValue port s) := by
  cases port <;> simp [observe, portReadable, h]

/-- Before INIT no port shows a value, but the event outputs in an INIT cycle (60_exceptions.md R93; log 11). -/
theorem observe_before_init {s : State} {port : OutPort} (hi : s.initialised = false)
    (h : s.ports.init = false ∨ (port ≠ .pressEv ∧ port ≠ .releaseEv)) : observe port s = none := by
  have hunreadable : portReadable port s = false := by
    cases port with
    | isHigh | isLow | state | press => exact hi
    | pressEv | releaseEv => simpa [portReadable, hi] using h
  simp [observe, hunreadable]

theorem trace_succ (port : OutPort) (k : Nat) {s t : State} (h : step s = .next t) :
    trace port (k + 1) s = observe port s :: trace port k t := by simp [trace, h]

theorem trace_getElem?_zero (port : OutPort) (k : Nat) (s : State) :
    (trace port (k + 1) s)[0]? = some (observe port s) := rfl

/-- Settles O31, by induction on the edges before the cycle: each takes one entry off the trace. -/
theorem traceShowsThePortOfEachCycle : Obligations.TraceShowsThePortOfEachCycle := by
  intro port s t j k hjk hrun
  induction j generalizing s k with
  | zero =>
    obtain ⟨k, rfl⟩ := Nat.exists_eq_succ_of_ne_zero (Nat.ne_of_gt hjk)
    injection hrun with hst
    rw [← hst, trace_getElem?_zero]
  | succ j ih =>
    obtain ⟨k, rfl⟩ := Nat.exists_eq_succ_of_ne_zero (Nat.ne_of_gt (Nat.zero_lt_of_lt hjk))
    obtain ⟨u, hstep, hrest⟩ := run_succ_next hrun
    rw [trace_succ port k hstep, List.getElem?_cons_succ]
    exact ih u k (Nat.lt_of_succ_lt_succ hjk) hrest

/-! Power-on, and the values after INIT -/

/-- No instruction but INIT ends the time before INIT (60_exceptions.md R93). -/
theorem exec_initialised_iff_init {i : Instr} {s t : State} (hs : s.initialised = false) (h : exec i s = .next t) :
    t.initialised = true ↔ ∃ p, i = .init p := by
  have hnot : ¬ s.initialised = true := by simp [hs]
  rcases exec_next h with ⟨p, rfl, rfl⟩ | ⟨_, hi, _⟩ | ⟨_, hi, _⟩ | ⟨_, _, hi, _⟩ | ⟨_, _, hi, _⟩ | ⟨_, rfl, rfl⟩ |
    ⟨_, hkind, _, rfl⟩
  · simp
  · exact absurd hi hnot
  · exact absurd hi hnot
  · exact absurd hi hnot
  · exact absurd hi hnot
  · simp [hs]
  · have hother : ¬ ∃ p, i = .init p := by
      rintro ⟨p, rfl⟩
      cases hkind
    exact iff_of_false hnot hother

/-- Settles O32: the ports by `observe_before_init`, the way out by the inversion lemma of `exec`, the widths
by the one test of the parameters. -/
theorem powerOnAwaitsInit : Obligations.PowerOnAwaitsInit :=
  ⟨rfl, fun _ => observe_before_init rfl (.inl rfl), fun _ _ h => observe_before_init rfl h,
    fun _ _ _ hs h => exec_initialised_iff_init hs h, fun _ _ => rfl,
    fun _ _ _ hw => ⟨_, dif_pos hw, rfl, rfl, rfl⟩⟩

theorem stateCode_fill {w : Nat} (hw : 0 < w) (p : Bool) :
    stateCode (fill w p) = if p then 0b10#2 else 0b01#2 := by
  rw [stateCode, bufIsHigh_fill hw, bufIsLow_fill hw]
  cases p <;> rfl

/-- Settles O33: the state after an INIT edge (`step_init`), port by port. -/
theorem valuesAfterInitEdge : Obligations.ValuesAfterInitEdge := by
  intro s hp
  refine ⟨_, step_init hp, toNat_fill _ _, ?_, ?_, ?_, ?_, ?_, fun i hi => getLsbD_shlIn_of_lt _ _ hi⟩ <;>
    rw [observe_of_initialised rfl]
  · simp [portValue, bufIsHigh_fill s.cfg.w_pos]
  · simp [portValue, bufIsLow_fill s.cfg.w_pos]
  · simp [portValue, stateCode_fill s.cfg.w_pos]
  · simp [portValue, upd_tstate_fill s.cfg.w_pos]
  · simp [portValue, upd_tstate_fill s.cfg.w_pos]

/-! The content of the buffer -/

/-- A buffer after a list of samples, bit by bit: the samples, newest at bit 0, and above them what it held before
(10_state.md R15). -/
theorem getLsbD_foldl_shlIn {w : Nat} (b : BitVec w) (samples : List Bool) {i : Nat} (hi : i < w) :
    (samples.foldl shlIn b).getLsbD i =
      if i < samples.length then samples.getD (samples.length - 1 - i) false
      else b.getLsbD (i - samples.length) := by
  induction samples using List.reverseRecOn generalizing i with
  | nil => simp
  | append_singleton xs x ih =>
    rw [List.foldl_concat, getLsbD_shlIn_of_lt _ _ hi]
    cases i with
    | zero => simp
    | succ i =>
      rw [if_neg (Nat.succ_ne_zero i), Nat.add_sub_cancel, ih (Nat.lt_of_succ_lt hi)]
      by_cases h : i < xs.length
      · have hlt : xs.length - 1 - i < xs.length := by omega
        have hidx : xs.length - (i + 1) = xs.length - 1 - i := by omega
        simp [h, hidx, List.getElem?_append_left hlt]
      · simp [h]

/-- The tick-level buffer after a list of samples is the register's shifts of them. -/
theorem tickRun_ticks_buf (c : Config) (b : BitVec c.w) (p : Bool) (samples : List Bool) :
    (tickRun c { buf := b.toNat, press := p } (samples.map TickEvent.tick)).buf = (samples.foldl shlIn b).toNat := by
  induction samples generalizing b p with
  | nil => rfl
  | cons x xs ih =>
    rw [List.foldl_cons, ← ih (shlIn b x) (tickFlag c (shlIn b x).toNat p), toNat_shlIn]
    rfl

/-- The events of an INIT edge and further edges without INIT: the INIT, and then the ticks of the samples. -/
theorem tickEvents_init_cons {n : Nat} (sync : BitVec n) {e : Ports} {es : List Ports} (he : e.init = true)
    (hes : NoInit es) :
    tickEvents sync (e :: es) = .init e.pullUpActive :: (tickSamples sync (e :: es)).map TickEvent.tick := by
  rw [tickEvents_cons, tickSamples_cons, tickEvents_eq_map_tick _ hes]
  simp [headEvent, he, TickEvent.sample?]

/-- After an INIT and further edges without one, `buf` is the fill with the samples shifted in. It is stated through
the integer `buf` denotes, `t.cfg` being only provably `s.cfg`. -/
theorem run_drive_init_buf (s : State) {e : Ports} {es : List Ports} (he : e.init = true) (hes : NoInit es) :
    ∃ t, run (es.length + 1) (s.drive (e :: es)) = .next t ∧ t.initialised = true ∧
      t.buf.toNat = ((tickSamples s.sync (e :: es)).foldl shlIn (fill s.cfg.w e.pullUpActive)).toNat := by
  obtain ⟨t, hrun, hinit, htick⟩ := run_drive_tickState (e :: es) s (.inr (by simpa using he))
  refine ⟨t, hrun, hinit, ?_⟩
  calc t.buf.toNat
      = (tickRun s.cfg s.tickState (tickEvents s.sync (e :: es))).buf := congrArg TickState.buf htick
    _ = (tickRun s.cfg (tickApply s.cfg s.tickState (.init e.pullUpActive))
          ((tickSamples s.sync (e :: es)).map TickEvent.tick)).buf := by
        rw [tickEvents_init_cons s.sync he hes]; rfl
    _ = ((tickSamples s.sync (e :: es)).foldl shlIn (fill s.cfg.w e.pullUpActive)).toNat := by
        rw [tickApply, tickFill, ← toNat_fill, tickRun_ticks_buf]

/-- Settles O46, by the bits of the shifts. -/
theorem bufferHoldsSamplesSinceInit : Obligations.BufferHoldsSamplesSinceInit := by
  intro s e es he hes
  obtain ⟨t, hrun, _, hbuf⟩ := run_drive_init_buf s he hes
  refine ⟨t, hrun, fun i hi => ?_⟩
  have hfill : i - (tickSamples s.sync (e :: es)).length < s.cfg.w := by omega
  rw [← BitVec.testBit_toNat, hbuf, BitVec.testBit_toNat, getLsbD_foldl_shlIn _ _ hi, getLsbD_fill]
  simp [hfill]

end Sys2Proof.Machine
end

section
/-! PROOFS of the family 20_memory.md: a read has no side effect (R37), and after an edge the port `press` shows the flag
that edge committed (R38). -/

namespace Sys2Proof.Machine

/-! The consumer's record decides nothing at a port -/

@[simp] theorem portValue_with_seen (port : OutPort) (s : State) (r : Option Reading) :
    portValue port { s with seen := r } = portValue port s := by cases port <;> rfl

@[simp] theorem portReadable_with_seen (port : OutPort) (s : State) (r : Option Reading) :
    portReadable port { s with seen := r } = portReadable port s := by cases port <;> rfl

@[simp] theorem observe_with_seen (port : OutPort) (s : State) (r : Option Reading) :
    observe port { s with seen := r } = observe port s := by
  rw [observe, observe, portReadable_with_seen, portValue_with_seen]

/-- After a read the port is still readable and carries the value recorded, so the same read again records it again. -/
theorem readPort_again {port : OutPort} {s : State} (h : portReadable port s = true) :
    readPort port { s with seen := some (portValue port s) } = .next { s with seen := some (portValue port s) } := by
  have hreadable : portReadable port { s with seen := some (portValue port s) } = true := by
    rwa [portReadable_with_seen]
  simpa only [portValue_with_seen] using readPort_readable hreadable

/-- Settles O20: the inversion lemma of a read gives the record that changed, and no port reads that record. -/
theorem readsHaveNoSideEffect : Obligations.ReadsHaveNoSideEffect := by
  intro port s t h
  obtain ⟨hreadable, rfl⟩ := readPort_next h
  exact ⟨⟨_, rfl⟩, readPort_again hreadable, fun other => observe_with_seen other s _⟩

/-! The flag after an edge -/

/-- An edge goes through only after INIT or by it (60_exceptions.md R93). -/
theorem initialised_of_step {s t : State} (h : step s = .next t) : t.initialised = true := by
  obtain ⟨_, _, rfl⟩ := step_next_frame h
  rfl

/-- Settles O21: INIT has happened after any edge, so that the port `press` is readable. -/
theorem pressPortShowsLastCommittedValue : Obligations.PressPortShowsLastCommittedValue := by
  intro s t h
  have hreadable : portReadable .press t = true := initialised_of_step h
  exact readPort_readable hreadable

end Sys2Proof.Machine
end

section
/-! PROOFS of the family 30_encoding.md: the command word, its decode and its canonical form (R45, R47 to R49, R53), and
the words of an assembled program, what each decodes to and what running them does (R46, R54). -/

namespace Sys2Proof.Machine

/-! The command word and its three bits -/

theorem getLsbD_commandWordOf (init tick p : Bool) :
    (commandWordOf init tick p).getLsbD 2 = init ∧ (commandWordOf init tick p).getLsbD 1 = tick ∧
      (commandWordOf init tick p).getLsbD 0 = p := by
  revert init tick p; decide

/-- Settles O2: the ports' command word is the concatenation whose bits `getLsbD_commandWordOf` reads back. -/
theorem commandWordBitsAreThePorts : Obligations.CommandWordBitsAreThePorts :=
  fun p => getLsbD_commandWordOf p.init p.tick p.pullUpActive

/-! The rows of the decode -/

/-- The row `1xp` (30_encoding.md R47). -/
theorem decode_of_init_match {cw : CommandWord} (h : cw &&& 0b100#3 = 0b100#3) : decode cw = .init (cw.getLsbD 0) := by
  have hinit : cw.getLsbD 2 = true := by simpa using congrArg (BitVec.getLsbD · 2) h
  rw [decode, hinit, if_pos rfl]

/-- The row `01x` (30_encoding.md R48). -/
theorem decode_of_tick_match {cw : CommandWord} (h : cw &&& 0b110#3 = 0b010#3) : decode cw = .tick := by
  have hinit : cw.getLsbD 2 = false := by simpa using congrArg (BitVec.getLsbD · 2) h
  have htick : cw.getLsbD 1 = true := by simpa using congrArg (BitVec.getLsbD · 1) h
  rw [decode, hinit, htick]
  rfl

/-- The row `00x` (30_encoding.md R49). -/
theorem decode_of_nop_match {cw : CommandWord} (h : cw &&& 0b110#3 = 0b000#3) : decode cw = .nop := by
  have hinit : cw.getLsbD 2 = false := by simpa using congrArg (BitVec.getLsbD · 2) h
  have htick : cw.getLsbD 1 = false := by simpa using congrArg (BitVec.getLsbD · 1) h
  rw [decode, hinit, htick]
  rfl

/-- Settles O1, row by row. -/
theorem decodeByMatchAndMask : Obligations.DecodeByMatchAndMask :=
  fun _ => ⟨decode_of_init_match, decode_of_tick_match, decode_of_nop_match⟩

/-- Settles O3: each word of the table meets the match of its row. -/
theorem tableWordsDecodeAsWritten : Obligations.TableWordsDecodeAsWritten :=
  ⟨decode_of_nop_match rfl, decode_of_nop_match rfl, decode_of_tick_match rfl, decode_of_tick_match rfl,
    decode_of_init_match rfl, decode_of_init_match rfl, decode_of_init_match rfl, decode_of_init_match rfl⟩

/-! The canonical word -/

/-- Encode and decode agree on every row of the opcode table (30_encoding.md, opening paragraph). -/
theorem encodeDecodes (i : Instr) : Laws.EncodeDecodes.Statement i := by
  cases i with
  | init p => exact Laws.EncodeDecodes.init p
  | tick => exact Laws.EncodeDecodes.tick
  | nop => exact Laws.EncodeDecodes.nop
  | sample bit => exact Laws.EncodeDecodes.sample bit
  | update t => exact Laws.EncodeDecodes.update t
  | sync raw => exact Laws.EncodeDecodes.sync raw
  | isHigh => exact Laws.EncodeDecodes.isHigh
  | isLow => exact Laws.EncodeDecodes.isLow
  | state => exact Laws.EncodeDecodes.state
  | pressEv => exact Laws.EncodeDecodes.pressEv
  | releaseEv => exact Laws.EncodeDecodes.releaseEv

theorem exists_encode_of_wellFormed {i : Instr} (h : i.wellFormed = true) :
    ∃ cw, encode i = some cw ∧ decode cw = i := by
  obtain ⟨hdecode, hsome⟩ := encodeDecodes i
  obtain ⟨cw, hcw⟩ := Option.isSome_iff_exists.1 (hsome.1 h)
  exact ⟨cw, hcw, hdecode cw hcw⟩

theorem encode_eq_none_of_not_wellFormed {i : Instr} (h : i.wellFormed = false) : encode i = none := by
  obtain ⟨_, hsome⟩ := encodeDecodes i
  rw [← Option.not_isSome_iff_eq_none, ← hsome, h]
  exact Bool.false_ne_true

/-- There is no illegal word: each decodes to a command (30_encoding.md R53). -/
theorem decode_wellFormed (cw : CommandWord) : (decode cw).wellFormed = true := by
  unfold decode
  split
  · rfl
  · split <;> rfl

/-- Settles O4; the canonical word of `cw` is the one the command it decodes to has. -/
theorem encodeAndDecodeAgree : Obligations.EncodeAndDecodeAgree :=
  ⟨fun _ => exists_encode_of_wellFormed, fun _ => encode_eq_none_of_not_wellFormed,
    fun cw => exists_encode_of_wellFormed (decode_wellFormed cw)⟩

/-! The stimulus word -/

/-- The levels of the concatenation `{cw, raw}` (30_encoding.md R54). -/
theorem portsOfStimulus_append (init tick p raw : Bool) :
    portsOfStimulus (commandWordOf init tick p ++ BitVec.ofBool raw) =
      { init := init, tick := tick, pullUpActive := p, raw := raw } := by
  revert init tick p raw; decide

@[simp] theorem portsOfStimulus_stimulusOf_raw (c : AsmCommand) (raw : Bool) :
    (portsOfStimulus (stimulusOf c raw)).raw = raw := by
  cases c <;> rw [stimulusOf, portsOfStimulus_append]

theorem decode_portsOfStimulus_stimulusOf (c : AsmCommand) (raw : Bool) :
    decode (portsOfStimulus (stimulusOf c raw)).commandWord = c.instr := by
  cases c <;> rw [stimulusOf, portsOfStimulus_append, Ports.commandWord, decode_commandWordOf] <;> rfl

/-! The words of an assembled program -/

/-- The level a line without `raw=` keeps: that of the word before, or before the first word the level `last`
(30_encoding.md R54). -/
def levelBefore (last : Option Bool) (ws : List StimulusWord) (k : Nat) : Option Bool :=
  if k = 0 then last else (ws[k - 1]?).map (fun y => (portsOfStimulus y).raw)

@[simp] theorem levelBefore_zero (last : Option Bool) (ws : List StimulusWord) : levelBefore last ws 0 = last := rfl

/-- Seen from the second line on, the first word's level is the level before the program. -/
theorem levelBefore_cons_succ (last : Option Bool) (c : AsmCommand) (raw : Bool) (ws : List StimulusWord) (k : Nat) :
    levelBefore last (stimulusOf c raw :: ws) (k + 1) = levelBefore (some raw) ws k := by
  cases k <;> simp [levelBefore]

/-- There is one word a line. -/
theorem assembleFrom_length {last : Option Bool} {ls : List AsmLine} {ws : List StimulusWord}
    (h : assembleFrom last ls = some ws) : ws.length = ls.length := by
  induction ls generalizing last ws with
  | nil => cases h; rfl
  | cons l ls ih =>
    obtain ⟨raw, rest, _, hrest, rfl⟩ := assembleFrom_cons_some h
    rw [List.length_cons, List.length_cons, ih hrest]

/-- Word `k` is the stimulus word of line `k`, at the level the line gives or else keeps (30_encoding.md R54). -/
theorem assembleFrom_getElem? {last : Option Bool} {ls : List AsmLine} {ws : List StimulusWord} {k : Nat} {l : AsmLine}
    {x : StimulusWord} (h : assembleFrom last ls = some ws) (hl : ls[k]? = some l) (hx : ws[k]? = some x) :
    ∃ raw, l.raw.or (levelBefore last ws k) = some raw ∧ x = stimulusOf l.command raw := by
  induction ls generalizing last ws k with
  | nil => simp at hl
  | cons l₀ ls ih =>
    obtain ⟨raw, rest, hraw, hrest, rfl⟩ := assembleFrom_cons_some h
    cases k with
    | zero =>
      obtain rfl : l₀ = l := by simpa using hl
      rw [levelBefore_zero]
      exact ⟨raw, hraw, by simpa using hx.symm⟩
    | succ k =>
      rw [List.getElem?_cons_succ] at hl hx
      rw [levelBefore_cons_succ]
      exact ih hrest hl hx

/-- Settles O5: `assembleFrom_getElem?` names the word of each line, and a stimulus word reads back as its command and
its level. -/
theorem assembledProgramDecodesToItsCommands : Obligations.AssembledProgramDecodesToItsCommands := by
  intro ls last ws h
  refine ⟨assembleFrom_length h, fun k l x hl hx => ?_⟩
  obtain ⟨raw, hraw, rfl⟩ := assembleFrom_getElem? h hl hx
  refine ⟨decode_portsOfStimulus_stimulusOf l.command raw, ?_⟩
  rw [portsOfStimulus_stimulusOf_raw, ← hraw, levelBefore]

/-! A loaded program, edge by edge -/

/-- After `k` edges of a script its entry `k` is on the input ports (30_encoding.md R46). -/
theorem run_drive_ports {k : Nat} {s t : State} {es : List Ports} {e : Ports} (he : es[k]? = some e)
    (hrun : run k (s.drive es) = .next t) : t.ports = e := by
  induction k generalizing s es with
  | zero =>
    injection hrun with ht
    cases es with
    | nil => simp at he
    | cons e₀ es =>
      rw [← ht, drive_ports_cons]
      simpa using he
  | succ k ih =>
    cases es with
    | nil => simp at he
    | cons e₀ es =>
      obtain ⟨u, hstep, hrest⟩ := run_succ_next hrun
      rw [eq_drive_of_step_drive_cons hstep] at hrest
      exact ih (by simpa using he) hrest

/-- Settles O30: a loaded program is the script of its words' levels. -/
theorem loadedWordsAreSampledInOrder : Obligations.LoadedWordsAreSampledInOrder := by
  intro s t ws k x hx hrun
  have hports : (ws.map portsOfStimulus)[k]? = some (portsOfStimulus x) := by rw [List.getElem?_map, hx]; rfl
  exact run_drive_ports hports hrun

/-! The two readings of a program -/

theorem mapM_cons_eq_some {α β : Type} {f : α → Option β} {a : α} {as : List α} {bs : List β}
    (h : (a :: as).mapM f = some bs) : ∃ b rest, f a = some b ∧ as.mapM f = some rest ∧ bs = b :: rest := by
  rw [List.mapM_cons] at h
  obtain ⟨b, hb, h⟩ := Option.bind_eq_some_iff.1 h
  obtain ⟨rest, hrest, h⟩ := Option.bind_eq_some_iff.1 h
  exact ⟨b, rest, hb, hrest, (Option.some.inj h).symm⟩

theorem mapM_eq_none_of_mem {α β : Type} {f : α → Option β} {a : α} {as : List α} (ha : a ∈ as)
    (hf : f a = none) : as.mapM f = none := by
  rw [Option.eq_none_iff_forall_ne_some]
  intro bs h
  induction as generalizing bs with
  | nil => simp at ha
  | cons a₀ as ih =>
    obtain ⟨b, rest, hb, hrest, _⟩ := mapM_cons_eq_some h
    rcases List.mem_cons.1 ha with rfl | ha
    · rw [hf] at hb; cases hb
    · exact ih ha rest hrest

/-- With a synchronizer a program that holds a `TICK s` has no stimulus words (30_encoding.md R54). -/
theorem assemble_eq_none_of_tick {nSync : Nat} {xs : List AsmItem} {bit : Bool} (hn : 0 < nSync)
    (h : AsmStep.tick bit ∈ xs.flatMap AsmItem.expand) : assemble nSync xs = none := by
  have hline : AsmStep.line? nSync (.tick bit) = none := if_neg (Nat.ne_of_gt hn)
  rw [assemble, mapM_eq_none_of_mem h hline]
  rfl

/-- The two readings of one step agree: without a synchronizer the edge of its line is the events of the step
(30_encoding.md R54; 00_scope.md R9). -/
theorem headEvent_of_step (sync : BitVec 0) {x : AsmStep} {l : AsmLine} {es : List TickEvent} {last : Option Bool}
    {raw : Bool} (hline : x.line? 0 = some l) (hevents : x.events? = some es) (hraw : l.raw.or last = some raw) :
    (headEvent sync (portsOfStimulus (stimulusOf l.command raw))).toList = es := by
  rw [headEvent_stimulusOf]
  cases x with
  | tick bit =>
    cases hline
    cases hevents
    cases hraw
    rfl
  | line l' =>
    cases hline
    obtain ⟨c, _⟩ := l
    cases c <;> cases hevents <;> rfl

/-- The two readings of a list of steps agree: its words, as edges without a synchronizer, stand for its events. -/
theorem tickEvents_of_steps (sync : BitVec 0) {steps : List AsmStep} {last : Option Bool}
    {ls : List AsmLine} {ws : List StimulusWord} {ess : List (List TickEvent)}
    (hlines : steps.mapM (AsmStep.line? 0) = some ls) (hwords : assembleFrom last ls = some ws)
    (hevents : steps.mapM AsmStep.events? = some ess) :
    tickEvents sync (ws.map portsOfStimulus) = ess.flatten := by
  induction steps generalizing sync last ls ws ess with
  | nil =>
    cases hlines
    cases hwords
    cases hevents
    rfl
  | cons x steps ih =>
    obtain ⟨l, ls', hline, hlines', rfl⟩ := mapM_cons_eq_some hlines
    obtain ⟨es, ess', hes, hevents', rfl⟩ := mapM_cons_eq_some hevents
    obtain ⟨raw, ws', hraw, hwords', rfl⟩ := assembleFrom_cons_some hwords
    rw [List.map_cons, tickEvents_cons, headEvent_of_step sync hline hes hraw, ih _ hlines' hwords' hevents',
      List.flatten_cons]

/-- The depth is a variable with `n = 0`, as `s.cfg.nSync` is only provably 0. -/
theorem tickEvents_of_assemble {n : Nat} (hn : n = 0) (sync : BitVec n) {xs : List AsmItem} {ws : List StimulusWord}
    {es : List TickEvent} (hwords : assemble n xs = some ws) (hevents : assembleEvents xs = some es) :
    tickEvents sync (ws.map portsOfStimulus) = es := by
  subst hn
  obtain ⟨ls, hlines, hwords⟩ := Option.bind_eq_some_iff.1 hwords
  obtain ⟨ess, hess, rfl⟩ := Option.map_eq_some_iff.1 hevents
  exact tickEvents_of_steps sync hlines hwords hess

/-- The first word of a program that begins with a line is that line's. -/
theorem assemble_line_cons {n : Nat} {l : AsmLine} {xs : List AsmItem} {ws : List StimulusWord}
    (h : assemble n (.line l :: xs) = some ws) : ∃ raw rest, ws = stimulusOf l.command raw :: rest := by
  obtain ⟨ls, hlines, hwords⟩ := Option.bind_eq_some_iff.1 h
  obtain ⟨_, ls', hline, _, rfl⟩ := mapM_cons_eq_some hlines
  cases hline
  obtain ⟨raw, rest, _, _, rfl⟩ := assembleFrom_cons_some hwords
  exact ⟨raw, rest, rfl⟩

/-- A program that begins with an INIT line has INIT on the ports at its first edge. -/
theorem assemble_init_cons_head {n : Nat} {p : Bool} {raw : Option Bool} {xs : List AsmItem} {ws : List StimulusWord}
    (h : assemble n (.line { command := .init p, raw := raw } :: xs) = some ws) :
    ((ws.map portsOfStimulus).head?).any Ports.init = true := by
  obtain ⟨level, rest, rfl⟩ := assemble_line_cons h
  simp [stimulusOf, portsOfStimulus_append]

/-- Settles O57: a loaded program goes through as the events its edges stand for (`run_drive_tickState`), and without a
synchronizer those are the program's. -/
theorem assembledProgramRunsAsItsTicks : Obligations.AssembledProgramRunsAsItsTicks := by
  refine ⟨fun s xs ws es hstart hn hwords hevents => ?_, fun _ _ _ => assemble_eq_none_of_tick⟩
  have hready : s.initialised = true ∨ ((ws.map portsOfStimulus).head?).any Ports.init = true := by
    rcases hstart with hinit | ⟨p, raw, rest, rfl⟩
    · exact .inl hinit
    · exact .inr (assemble_init_cons_head hwords)
  obtain ⟨t, hrun, _, htick⟩ := run_drive_tickState (ws.map portsOfStimulus) s hready
  rw [List.length_map] at hrun
  rw [tickEvents_of_assemble hn s.sync hwords hevents] at htick
  exact ⟨t, hrun, htick⟩

end Sys2Proof.Machine
end

section
/-! PROOFS of the family 40_debounced_input.md: INIT, SAMPLE and the reads of the shift register (R55 to R60), the
buffer as the window of the last `W` samples (R62), and its laws: idempotence (R63), latency (R64), bounce rejection
(R65). -/

namespace Sys2Proof.Machine

/-! INIT -/

/-- The buffer and the flag INIT commits, the old flag not read (40_debounced_input.md R55). -/
theorem commit_fill (s : State) (p : Bool) :
    s.commit (fill s.cfg.w p) = { s with buf := fill s.cfg.w p, press := (p != s.cfg.activeLow) } := by
  rw [State.commit, upd_tstate_fill s.cfg.w_pos]

theorem exec_init (p : Bool) (s : State) :
    exec (.init p) s =
      .next { s with buf := fill s.cfg.w p, press := (p != s.cfg.activeLow), initialised := true } :=
  congrArg Host.Outcome.next (commit_fill { s with initialised := true } p)

/-- Settles O6, by the bits and the value of the fill. -/
theorem initFillsBufferAndSetsFlag : Obligations.InitFillsBufferAndSetsFlag := by
  intro s p
  refine ⟨fill s.cfg.w p, _, exec_init p s, toNat_fill _ _, fun i hi => ?_, bne_iff_ne,
    bufIsHigh_fill s.cfg.w_pos p, bufIsLow_fill s.cfg.w_pos p⟩
  rw [getLsbD_fill, decide_eq_true hi, Bool.true_and]

/-- The state after an INIT edge, no register but `sync` read (40_debounced_input.md R55). -/
theorem step_init_registers {s : State} (h : s.ports.init = true) :
    step s = .next (State.closeEdge
      { s with
        buf := fill s.cfg.w s.ports.pullUpActive
        press := (s.ports.pullUpActive != s.cfg.activeLow)
        initialised := true } s.ports.raw) := by
  rw [step_init h]
  exact congrArg (fun t => Host.Outcome.next (t.closeEdge s.ports.raw))
    (commit_fill { s with initialised := true } s.ports.pullUpActive)

/-- An INIT edge forgets `buf`, `press` and an earlier INIT (70_reset_and_hazards.md R99, R106). -/
theorem step_init_forgets (s : State) (b : BitVec s.cfg.w) (q f : Bool) (h : s.ports.init = true) :
    step { s with buf := b, press := q, initialised := f } = step s :=
  (step_init_registers (s := { s with buf := b, press := q, initialised := f }) h).trans (step_init_registers h).symm

/-- Before INIT `buf` and `press` decide nothing: an edge that is no INIT is refused (10_state.md R27). -/
theorem step_before_init_forgets (s : State) (b : BitVec s.cfg.w) (q : Bool) (hi : s.initialised = false) :
    step { s with buf := b, press := q } = step s := by
  cases hp : s.ports.init
  case true => exact step_init_forgets s b q s.initialised hp
  case false => rw [step_refused hi hp, step_refused (s := { s with buf := b, press := q }) hi hp]

/-- Settles O27; the chain stays out of what INIT leaves in `buf` and `press` as the fill does not read it. -/
theorem initForgetsAllHistory : Obligations.InitForgetsAllHistory :=
  ⟨step_init_forgets, step_before_init_forgets,
    fun s y h => ⟨_, _, step_init h, step_init (s := { s with sync := y }) h, rfl⟩⟩

/-! SAMPLE -/

theorem exec_sample {s : State} (bit : Bool) (h : s.initialised = true) :
    exec (.sample bit) s = .next { s with buf := shlIn s.buf bit } :=
  afterInit_initialised h _

/-- Settles O9, by the value and the bits of the shift. -/
theorem sampleShiftsInOneBit : Obligations.SampleShiftsInOneBit := by
  intro s bit h
  refine ⟨_, exec_sample bit h, toNat_shlIn s.buf bit, ?_, fun i hpos hi => ?_⟩
  · rw [getLsbD_shlIn_of_lt _ _ s.cfg.w_pos, if_pos rfl]
  · rw [getLsbD_shlIn_of_lt _ _ hi, if_neg (Nat.ne_of_gt hpos)]

/-! The reads of the shift register -/

/-- After INIT every port can be read, and the consumer records its value. -/
theorem readPort_initialised {s : State} (h : s.initialised = true) (port : OutPort) :
    readPort port s = .next { s with seen := some (portValue port s) } := by
  rw [readPort, observe_of_initialised h]

theorem bufIsHigh_iff_bits {w : Nat} (b : BitVec w) : bufIsHigh b = true ↔ ∀ i < w, b.getLsbD i = true := by
  rw [bufIsHigh_iff, ← tstate_high_iff, tstate_high_iff_bits]

theorem bufIsLow_iff_bits {w : Nat} (hw : 0 < w) (b : BitVec w) :
    bufIsLow b = true ↔ ∀ i < w, b.getLsbD i = false := by
  rw [bufIsLow_iff, ← tstate_low_iff hw, tstate_low_iff_bits hw]

/-- Settles O14. -/
theorem isHighReadsAllOnes : Obligations.IsHighReadsAllOnes :=
  fun s h => ⟨_, readPort_initialised h .isHigh, bufIsHigh_iff_bits s.buf⟩

/-- Settles O15. -/
theorem isLowReadsAllZeros : Obligations.IsLowReadsAllZeros :=
  fun s h => ⟨_, readPort_initialised h .isLow, bufIsLow_iff_bits s.cfg.w_pos s.buf⟩

/-- The code of a ternary state (30_encoding.md R52). -/
def ternaryCode (t : Ternary) : TernaryCode :=
  match t with
  | .high => 0b10#2
  | .low => 0b01#2
  | .indeterminate => 0b00#2

theorem ternaryCode_injective : Function.Injective ternaryCode := by
  intro t u
  cases t <;> cases u <;> decide

theorem ternaryCode_ne_eleven (t : Ternary) : ternaryCode t ≠ 0b11#2 := by
  cases t <;> decide

theorem not_bufIsHigh_and_bufIsLow {w : Nat} (hw : 0 < w) (b : BitVec w) :
    ¬ (bufIsHigh b = true ∧ bufIsLow b = true) := by
  rw [bufIsHigh_iff, bufIsLow_iff]
  rintro ⟨rfl, hzero⟩
  exact ones_ne_zero hw hzero

/-- The port `state` carries the code of the ternary state, the two queries never both true (40_debounced_input.md
R60). -/
theorem stateCode_eq_ternaryCode {w : Nat} (hw : 0 < w) (b : BitVec w) : stateCode b = ternaryCode (tstate b) := by
  rw [stateCode, tstate]
  cases hhigh : bufIsHigh b <;> cases hlow : bufIsLow b
  · rfl
  · rfl
  · rfl
  · exact absurd ⟨hhigh, hlow⟩ (not_bufIsHigh_and_bufIsLow hw b)

theorem tstate_indeterminate_iff_bits {w : Nat} (hw : 0 < w) (b : BitVec w) :
    tstate b = .indeterminate ↔ (∃ i < w, b.getLsbD i = true) ∧ ∃ i < w, b.getLsbD i = false := by
  refine ⟨fun h => ⟨?_, ?_⟩, fun ⟨hone, hzero⟩ => tstate_indeterminate_of_mixed hone hzero⟩
  · by_contra hnone
    have hlow : tstate b = .low := (tstate_low_iff_bits hw b).2 (by simpa using hnone)
    rw [h] at hlow; cases hlow
  · by_contra hnone
    have hhigh : tstate b = .high := (tstate_high_iff_bits b).2 (by simpa using hnone)
    rw [h] at hhigh; cases hhigh

/-- Settles O16: the code is that of the ternary state, and each state is told by the bits. -/
theorem stateReadsTernaryCode : Obligations.StateReadsTernaryCode := by
  intro s h
  have hcode := stateCode_eq_ternaryCode s.cfg.w_pos s.buf
  refine ⟨_, readPort_initialised h .state, ?_, ?_, ?_, ?_⟩ <;> rw [hcode]
  · rw [← tstate_high_iff_bits]; exact ternaryCode_injective.eq_iff (b := .high)
  · rw [← tstate_low_iff_bits s.cfg.w_pos]; exact ternaryCode_injective.eq_iff (b := .low)
  · rw [← tstate_indeterminate_iff_bits s.cfg.w_pos]; exact ternaryCode_injective.eq_iff (b := .indeterminate)
  · exact ternaryCode_ne_eleven _

/-! A stable buffer, and the first sample of the opposite level -/

theorem shlIn_fill_same (w : Nat) (p : Bool) : shlIn (fill w p) p = fill w p := by
  apply BitVec.eq_of_getLsbD_eq
  intro i hi
  rw [getLsbD_shlIn_of_lt _ _ hi, getLsbD_fill, getLsbD_fill]
  have hprev : i - 1 < w := by omega
  simp [hi, hprev]

/-- The newest bit and the one before it differ (40_debounced_input.md R63; `W = 1` has only the newest, log 21). -/
theorem tstate_shlIn_fill_opposite {w : Nat} (hw : 1 < w) (p : Bool) :
    tstate (shlIn (fill w p) (!p)) = .indeterminate := by
  have hnew : (shlIn (fill w p) (!p)).getLsbD 0 = !p := by
    rw [getLsbD_shlIn_of_lt _ _ (by omega), if_pos rfl]
  have hold : (shlIn (fill w p) (!p)).getLsbD 1 = p := by
    rw [getLsbD_shlIn_of_lt _ _ hw, if_neg Nat.one_ne_zero, getLsbD_fill, decide_eq_true (by omega), Bool.true_and]
  cases p
  · exact tstate_indeterminate_of_mixed ⟨0, by omega, hnew⟩ ⟨1, hw, hold⟩
  · exact tstate_indeterminate_of_mixed ⟨1, hw, hold⟩ ⟨0, by omega, hnew⟩

theorem toNat_shlIn_ones_false {w : Nat} (hw : 0 < w) : (shlIn (ones w) false).toNat = 2 ^ w - 2 := by
  have hpow : 2 ≤ 2 ^ w := Nat.le_self_pow (Nat.ne_of_gt hw) 2
  have hsplit : 2 * (2 ^ w - 1) + 0 = (2 ^ w - 2) + 2 ^ w := by omega
  rw [toNat_shlIn, BitVec.toNat_allOnes, Bool.toNat_false, hsplit, Nat.add_mod_right, Nat.mod_eq_of_lt (by omega)]

theorem toNat_shlIn_zero_true {w : Nat} (hw : 0 < w) : (shlIn (0 : BitVec w) true).toNat = 1 := by
  rw [toNat_shlIn]
  simpa using Nat.mod_eq_of_lt (Nat.one_lt_two_pow (Nat.ne_of_gt hw))

/-- Settles O38; ones and zeros are the two fills. -/
theorem stableBufferIsIdempotent : Obligations.StableBufferIsIdempotent :=
  fun w hw => ⟨shlIn_fill_same w true, shlIn_fill_same w false, toNat_shlIn_ones_false hw, toNat_shlIn_zero_true hw,
    fun hw1 => ⟨tstate_shlIn_fill_opposite hw1 true, tstate_shlIn_fill_opposite hw1 false⟩⟩

/-- Settles O37; a buffer that is neither is all ones with one 0 shifted in. -/
theorem neverBothHighAndLow : Obligations.NeverBothHighAndLow := by
  refine ⟨fun w b hw => ⟨not_bufIsHigh_and_bufIsLow hw b, ?_⟩, fun w hw => ⟨shlIn (fill w true) false, ?_⟩⟩
  · rw [stateCode_eq_ternaryCode hw]
    exact ternaryCode_ne_eleven _
  · obtain ⟨hones, hzero⟩ := (tstate_indeterminate_iff _).1 (tstate_shlIn_fill_opposite hw true)
    exact ⟨Bool.eq_false_iff.2 (mt (bufIsHigh_iff _).1 hones), Bool.eq_false_iff.2 (mt (bufIsLow_iff _).1 hzero)⟩

/-! The buffer as a window -/

/-- The window a buffer holds: its bits as a list, oldest first, so that bit 0 is the last entry
(40_debounced_input.md R62). -/
def windowOf {w : Nat} (b : BitVec w) : List Bool := (List.range w).map b.getMsbD

@[simp] theorem length_windowOf {w : Nat} (b : BitVec w) : (windowOf b).length = w := by simp [windowOf]

theorem getElem_windowOf {w i : Nat} (b : BitVec w) (hi : i < (windowOf b).length) :
    (windowOf b)[i] = b.getLsbD (w - 1 - i) := by
  have hiw : i < w := by simpa using hi
  simp [windowOf, BitVec.getMsbD, hiw]

theorem getD_windowOf {w i : Nat} (b : BitVec w) (hi : i < w) :
    (windowOf b).getD (w - 1 - i) false = b.getLsbD i := by
  have hidx : w - 1 - i < (windowOf b).length := by rw [length_windowOf]; omega
  have hback : w - 1 - (w - 1 - i) = i := by omega
  rw [List.getD_eq_getElem _ _ hidx, getElem_windowOf, hback]

theorem windowOf_fill (w : Nat) (p : Bool) : windowOf (fill w p) = List.replicate w p := by
  apply List.ext_getElem (by simp)
  intro i hi _
  rw [length_windowOf] at hi
  have hbit : w - 1 - i < w := by omega
  rw [getElem_windowOf, getLsbD_fill, decide_eq_true hbit, Bool.true_and, List.getElem_replicate]

theorem forall_mem_windowOf {w : Nat} (b : BitVec w) (level : Bool) :
    (∀ x ∈ windowOf b, x = level) ↔ ∀ i < w, b.getLsbD i = level := by
  constructor
  · intro h i hi
    have hidx : w - 1 - i < (windowOf b).length := by rw [length_windowOf]; omega
    rw [← getD_windowOf b hi, List.getD_eq_getElem _ _ hidx]
    exact h _ (List.getElem_mem hidx)
  · intro h x hx
    obtain ⟨i, hi, rfl⟩ := List.getElem_of_mem hx
    rw [length_windowOf] at hi
    rw [getElem_windowOf]
    exact h _ (by omega)

/-- A level is confirmed exactly if the whole window is at it (40_debounced_input.md R62). -/
theorem tstate_confirmed_iff_window {w : Nat} (hw : 0 < w) (b : BitVec w) (level : Bool) :
    tstate b = (if level then .high else .low) ↔ ∀ x ∈ windowOf b, x = level := by
  rw [forall_mem_windowOf]
  cases level
  · exact tstate_low_iff_bits hw b
  · exact tstate_high_iff_bits b

/-- Shifting samples in moves the window on over them (40_debounced_input.md R62). -/
theorem windowOf_foldl_shlIn {w : Nat} (b : BitVec w) (samples : List Bool) :
    windowOf (samples.foldl shlIn b) = (windowOf b ++ samples).drop samples.length := by
  apply List.ext_getElem (by simp)
  intro i hi _
  rw [length_windowOf] at hi
  have hbit : w - 1 - i < w := by omega
  rw [getElem_windowOf, getLsbD_foldl_shlIn _ _ hbit, List.getElem_drop]
  by_cases hnew : w - 1 - i < samples.length
  · have hold : (windowOf b).length ≤ samples.length + i := by rw [length_windowOf]; omega
    have hidx : samples.length - 1 - (w - 1 - i) = samples.length + i - (windowOf b).length := by
      rw [length_windowOf]; omega
    rw [if_pos hnew, List.getElem_append_right hold, hidx, List.getD_eq_getElem]
  · have hold : samples.length + i < (windowOf b).length := by rw [length_windowOf]; omega
    have hidx : w - 1 - i - samples.length = w - 1 - (samples.length + i) := by omega
    rw [if_neg hnew, List.getElem_append_left hold, getElem_windowOf, hidx]

/-- From `W` samples on the window holds samples only. -/
theorem windowOf_foldl_shlIn_of_le {w : Nat} (b : BitVec w) {samples : List Bool} (h : w ≤ samples.length) :
    windowOf (samples.foldl shlIn b) = samples.drop (samples.length - w) := by
  rw [windowOf_foldl_shlIn, List.drop_append, List.drop_eq_nil_of_le (by simpa using h), length_windowOf,
    List.nil_append]

/-- Up to `W` samples the window of a stable buffer holds the rest of the fill and then all of them. -/
theorem windowOf_foldl_shlIn_fill {w : Nat} (p : Bool) {samples : List Bool} (h : samples.length ≤ w) :
    windowOf (samples.foldl shlIn (fill w p)) = List.replicate (w - samples.length) p ++ samples := by
  rw [windowOf_foldl_shlIn, windowOf_fill, List.drop_append, List.drop_replicate, List.length_replicate,
    Nat.sub_eq_zero_of_le h, List.drop_zero]

/-! The verdict on samples -/

/-- `W` identical samples confirm their level from any buffer (40_debounced_input.md R64). -/
theorem tstate_foldl_shlIn_of_all {w : Nat} (hw : 0 < w) (b : BitVec w) {samples : List Bool} {level : Bool}
    (hall : ∀ x ∈ samples, x = level) (h : w ≤ samples.length) :
    tstate (samples.foldl shlIn b) = if level then .high else .low := by
  rw [tstate_confirmed_iff_window hw, windowOf_foldl_shlIn_of_le b h]
  exact fun x hx => hall x (List.mem_of_mem_drop hx)

/-- A level confirmed by `W` or more samples has been the level of `W` consecutive ones (40_debounced_input.md R65). -/
theorem replicate_infix_of_tstate {w : Nat} (hw : 0 < w) (b : BitVec w) {samples : List Bool} {level : Bool}
    (h : w ≤ samples.length) (hconf : tstate (samples.foldl shlIn b) = if level then .high else .low) :
    List.replicate w level <:+: samples := by
  rw [tstate_confirmed_iff_window hw, windowOf_foldl_shlIn_of_le b h] at hconf
  have hlast : samples.drop (samples.length - w) = List.replicate w level :=
    List.eq_replicate_iff.2 ⟨by rw [List.length_drop]; omega, hconf⟩
  rw [← hlast]
  exact (List.drop_suffix _ _).isInfix

/-- Fewer than `W` samples leave some of a stable buffer's level in the window. -/
theorem tstate_foldl_shlIn_fill_ne {w : Nat} {samples : List Bool} (level : Bool) (h : samples.length < w) :
    tstate (samples.foldl shlIn (fill w level)) ≠ if !level then .high else .low := by
  intro hconf
  rw [tstate_confirmed_iff_window (Nat.zero_lt_of_lt h), windowOf_foldl_shlIn_fill level (Nat.le_of_lt h)] at hconf
  have hold : level ∈ List.replicate (w - samples.length) level := List.mem_replicate.2 ⟨by omega, rfl⟩
  exact (Bool.eq_not_self level).1 (hconf level (List.mem_append_left _ hold))

/-- From a stable buffer the other level is confirmed only by `W` consecutive samples of it (40_debounced_input.md
R65). -/
theorem tstate_foldl_shlIn_fill_ne_of_noRun {w : Nat} (hw : 0 < w) {samples : List Bool} {level : Bool}
    (h : NoRun w (!level) samples) :
    tstate (samples.foldl shlIn (fill w level)) ≠ if !level then .high else .low := by
  by_cases hlen : samples.length < w
  · exact tstate_foldl_shlIn_fill_ne level hlen
  · exact fun hconf => h (replicate_infix_of_tstate hw _ (Nat.le_of_not_lt hlen) hconf)

/-! The flag over samples -/

theorem upd_confirmed (al level p : Bool) : upd al (if level then .high else .low) p = (level != al) := by
  cases level <;> cases al <;> rfl

/-- The flag that has the meaning of a level keeps it unless the other level is confirmed (41_sampler_transition.md
R70). -/
theorem upd_of_ne_opposite {al level : Bool} {t : Ternary} (h : t ≠ if !level then .high else .low) :
    upd al t (level != al) = (level != al) := by
  cases t with
  | high => cases level <;> simp at h ⊢
  | low => cases level <;> simp at h ⊢
  | indeterminate => rfl

/-- The last sample gives the flag from the buffer that holds it (41_sampler_transition.md R67). -/
theorem tickRun_ticks_press_concat (c : Config) (b : BitVec c.w) (p : Bool) (samples : List Bool) (x : Bool) :
    (tickRun c { buf := b.toNat, press := p } ((samples ++ [x]).map TickEvent.tick)).press =
      upd c.activeLow (tstate ((samples ++ [x]).foldl shlIn b))
        (tickRun c { buf := b.toNat, press := p } (samples.map TickEvent.tick)).press := by
  rw [List.map_append, tickRun_append, List.foldl_concat, ← tickFlag_toNat, toNat_shlIn, ← tickRun_ticks_buf c b p]
  rfl

/-- After a tick the flag has the meaning of a confirmed level (41_sampler_transition.md R72). -/
theorem tickRun_ticks_press_of_confirmed {c : Config} {b : BitVec c.w} (p : Bool) {samples : List Bool} {level : Bool}
    (hne : samples ≠ []) (hconf : tstate (samples.foldl shlIn b) = if level then .high else .low) :
    (tickRun c { buf := b.toNat, press := p } (samples.map TickEvent.tick)).press = (level != c.activeLow) := by
  obtain ⟨xs, x, rfl⟩ := List.eq_nil_or_concat' samples |>.resolve_left hne
  rw [tickRun_ticks_press_concat, hconf, upd_confirmed]

/-- Samples without a run of `W` at the other level leave the flag of a stable buffer as it is: by induction on them,
no buffer on the way confirms the other level (40_debounced_input.md R65). -/
theorem tickRun_ticks_press_of_noRun (c : Config) {samples : List Bool} {level : Bool}
    (h : NoRun c.w (!level) samples) :
    (tickRun c { buf := (fill c.w level).toNat, press := (level != c.activeLow) }
      (samples.map TickEvent.tick)).press = (level != c.activeLow) := by
  induction samples using List.reverseRecOn with
  | nil => rfl
  | append_singleton xs x ih =>
    have hprefix : NoRun c.w (!level) xs := fun hrun => h (hrun.trans (List.prefix_append xs [x]).isInfix)
    rw [tickRun_ticks_press_concat, ih hprefix]
    exact upd_of_ne_opposite (tstate_foldl_shlIn_fill_ne_of_noRun c.w_pos h)

/-! Runs over samples -/

theorem tstate_congr {w w' : Nat} {b : BitVec w} {b' : BitVec w'} (hw : w = w') (h : b.toNat = b'.toNat) :
    tstate b = tstate b' := by
  subst hw
  rw [BitVec.eq_of_toNat_eq h]

theorem run_drive_cfg {k : Nat} {s t : State} {es : List Ports} (h : run k (s.drive es) = .next t) : t.cfg = s.cfg :=
  run_cfg (s := s.drive es) h

/-- Edges without INIT leave the samples shifted into `buf` and the flag of the tick level. The buffer is given by its
integer and its verdict, `t.cfg` being only provably `s.cfg`. -/
theorem run_drive_noInit (s : State) {es : List Ports} (hi : s.initialised = true) (hes : NoInit es) :
    ∃ t, run es.length (s.drive es) = .next t ∧
      t.buf.toNat = ((tickSamples s.sync es).foldl shlIn s.buf).toNat ∧
      tstate t.buf = tstate ((tickSamples s.sync es).foldl shlIn s.buf) ∧
      t.press = (tickRun s.cfg s.tickState ((tickSamples s.sync es).map TickEvent.tick)).press := by
  obtain ⟨t, hrun, _, htick⟩ := run_drive_tickState es s (.inl hi)
  rw [tickEvents_eq_map_tick s.sync hes] at htick
  have hbuf : t.buf.toNat = ((tickSamples s.sync es).foldl shlIn s.buf).toNat :=
    (congrArg TickState.buf htick).trans (tickRun_ticks_buf s.cfg s.buf s.press _)
  exact ⟨t, hrun, hbuf, tstate_congr (congrArg Config.w (run_drive_cfg hrun)) hbuf, congrArg TickState.press htick⟩

/-- Settles O47: the window of the statement is that of the buffer the run leaves. -/
theorem ternaryStateIsTheWindowsVerdict : Obligations.TernaryStateIsTheWindowsVerdict := by
  intro s e es he hes
  obtain ⟨t, hrun, _, hbuf⟩ := run_drive_init_buf s he hes
  refine ⟨t, hrun, fun window hwindow => ?_⟩
  rw [← windowOf_fill, ← windowOf_foldl_shlIn] at hwindow
  subst hwindow
  rw [tstate_congr (congrArg Config.w (run_drive_cfg hrun)) hbuf]
  refine ⟨length_windowOf _, fun i hi => ?_, tstate_confirmed_iff_window s.cfg.w_pos _ true,
    tstate_confirmed_iff_window s.cfg.w_pos _ false⟩
  rw [getD_windowOf _ hi, ← BitVec.testBit_toNat, hbuf, BitVec.testBit_toNat]

/-! Latency -/

theorem toNat_foldl_shlIn_ones {w j : Nat} (hj : j ≤ w) :
    ((List.replicate j true).foldl shlIn (fill w false)).toNat = 2 ^ j - 1 := by
  induction j with
  | zero => simp [toNat_fill]
  | succ j ih =>
    have hlt : 2 ^ (j + 1) ≤ 2 ^ w := Nat.pow_le_pow_right (by decide) hj
    have hpos : 0 < 2 ^ j := Nat.two_pow_pos j
    have hnext : 2 * (2 ^ j - 1) + 1 = 2 ^ (j + 1) - 1 := by omega
    rw [List.replicate_succ', List.foldl_concat, toNat_shlIn, ih (Nat.le_of_succ_le hj), Bool.toNat_true, hnext,
      Nat.mod_eq_of_lt (by omega)]

theorem toNat_foldl_shlIn_zeros (w j : Nat) :
    ((List.replicate j false).foldl shlIn (fill w true)).toNat = (2 ^ w - 1) * 2 ^ j % 2 ^ w := by
  induction j with
  | zero => simp [toNat_fill]
  | succ j ih =>
    rw [List.replicate_succ', List.foldl_concat, toNat_shlIn, ih, Bool.toNat_false, Nat.add_zero, Nat.mul_mod_mod,
      Nat.pow_succ, Nat.mul_comm 2, Nat.mul_assoc]

/-- From a stable buffer up to `W` samples of the other level confirm it exactly if they are `W`
(40_debounced_input.md R64). -/
theorem tstate_foldl_shlIn_fill_iff {w : Nat} (hw : 0 < w) {samples : List Bool} {level : Bool}
    (hall : ∀ x ∈ samples, x = level) (hle : samples.length ≤ w) :
    tstate (samples.foldl shlIn (fill w (!level))) = (if level then .high else .low) ↔ samples.length = w := by
  constructor
  · intro hconf
    by_contra hne
    have hother := tstate_foldl_shlIn_fill_ne (!level) (Nat.lt_of_le_of_ne hle hne)
    rw [Bool.not_not] at hother
    exact hother hconf
  · exact fun hlen => tstate_foldl_shlIn_of_all hw _ hall (Nat.le_of_eq hlen.symm)

/-- Settles O48: samples of one level are that level repeated. -/
theorem latencyIsExactlyWSamples : Obligations.LatencyIsExactlyWSamples := by
  intro s es level hi hes hbuf hall hle
  obtain ⟨t, hrun, hnat, hstate, _⟩ := run_drive_noInit s hi hes
  have hrep : tickSamples s.sync es = List.replicate (tickSamples s.sync es).length level :=
    List.eq_replicate_length.2 hall
  rw [hbuf] at hnat hstate
  refine ⟨t, hrun, ?_, ?_, ?_⟩
  · rintro rfl
    rw [hnat, hrep, List.length_replicate]
    exact toNat_foldl_shlIn_ones hle
  · rintro rfl
    rw [hnat, hrep, List.length_replicate]
    exact toNat_foldl_shlIn_zeros _ _
  · rw [hstate]
    exact tstate_foldl_shlIn_fill_iff s.cfg.w_pos hall hle

/-- Settles O49: the window holds samples only, and the last tick gives the flag their meaning. -/
theorem wIdenticalSamplesAlwaysConfirm : Obligations.WIdenticalSamplesAlwaysConfirm := by
  intro s es level hi hes hall hle
  obtain ⟨t, hrun, _, hstate, hpress⟩ := run_drive_noInit s hi hes
  have hconf := tstate_foldl_shlIn_of_all s.cfg.w_pos s.buf hall hle
  have hne : tickSamples s.sync es ≠ [] := List.ne_nil_of_length_pos (Nat.lt_of_lt_of_le s.cfg.w_pos hle)
  exact ⟨t, hrun, hstate.trans hconf, hpress.trans (tickRun_ticks_press_of_confirmed s.press hne hconf)⟩

/-! Bounce rejection -/

/-- Settles O50: either confirmed level would have been a run of `W`. -/
theorem bouncingIsIndeterminate : Obligations.BouncingIsIndeterminate := by
  intro s es hi hes hle hnotrue hnofalse
  obtain ⟨t, hrun, _, hstate, _⟩ := run_drive_noInit s hi hes
  refine ⟨t, hrun, ?_⟩
  cases hverdict : tstate t.buf with
  | high =>
    exact absurd (replicate_infix_of_tstate (level := true) s.cfg.w_pos _ hle (hstate.symm.trans hverdict)) hnotrue
  | low =>
    exact absurd (replicate_infix_of_tstate (level := false) s.cfg.w_pos _ hle (hstate.symm.trans hverdict)) hnofalse
  | indeterminate => rfl

/-- Where the buffer is stable the invariant of the flag says what it is (41_sampler_transition.md R72). -/
theorem press_of_agrees_fill {s : State} {level : Bool} (hi : s.initialised = true) (hagrees : s.Agrees)
    (hbuf : s.buf = fill s.cfg.w level) : s.press = (level != s.cfg.activeLow) := by
  obtain ⟨hlow, hhigh⟩ := hagrees hi
  rw [hbuf, tstate_fill s.cfg.w_pos] at hlow hhigh
  cases level
  · simpa using hlow rfl
  · simpa using hhigh rfl

/-- Settles O51: the flag begins with the meaning of the fill and no sample takes it away. -/
theorem shortPressNeverReachesTheFlag : Obligations.ShortPressNeverReachesTheFlag := by
  intro s es level hi hagrees hes hbuf hnorun
  obtain ⟨t, hrun, _, _, hpress⟩ := run_drive_noInit s hi hes
  refine ⟨t, hrun, ?_⟩
  have hmeaning := press_of_agrees_fill hi hagrees hbuf
  rw [hpress, State.tickState, hbuf, hmeaning, tickRun_ticks_press_of_noRun s.cfg hnorun]

/-- Settles O52: `W` samples give the flag the meaning of the other level, and fewer hold no run of `W`. -/
theorem flagTurnsExactlyAtTheWthSample : Obligations.FlagTurnsExactlyAtTheWthSample := by
  intro s es level hi hagrees hes hbuf hall
  by_cases hle : s.cfg.w ≤ (tickSamples s.sync es).length
  · obtain ⟨t, hrun, _, hpress⟩ := wIdenticalSamplesAlwaysConfirm s es (!level) hi hes hall hle
    refine ⟨t, hrun, iff_of_true ?_ hle⟩
    rw [hpress, press_of_agrees_fill hi hagrees hbuf]
    cases level <;> cases s.cfg.activeLow <;> decide
  · have hnorun : NoRun s.cfg.w (!level) (tickSamples s.sync es) := fun hinfix =>
      hle (by simpa using hinfix.length_le)
    obtain ⟨t, hrun, hpress⟩ := shortPressNeverReachesTheFlag s es level hi hagrees hes hbuf hnorun
    exact ⟨t, hrun, iff_of_false (fun hne => hne hpress) hle⟩

end Sys2Proof.Machine
end

section
/-! PROOFS of the family 41_sampler_transition.md: TICK, NOP and UPDATE (R66 to R68), the changes of the flag (R70), the
event outputs (R71), the agreement of the flag with a confirmed level (R72), and the start-up without a press (R73). -/

namespace Sys2Proof.Machine

/-! TICK, NOP and UPDATE after INIT -/

theorem exec_tick {s : State} (h : s.initialised = true) :
    exec .tick s = .next (s.commit (shlIn s.buf (sampleBit s))) :=
  afterInit_initialised h _

theorem exec_update {s : State} (t : Ternary) (h : s.initialised = true) :
    exec (.update t) s = .next { s with press := upd s.cfg.activeLow t s.press } :=
  afterInit_initialised h _

/-- Settles O7: the value and the bits of the shift, and the flag by the bits of the shifted buffer. -/
theorem tickShiftsThenUpdates : Obligations.TickShiftsThenUpdates := by
  intro s h
  refine ⟨shlIn s.buf (sampleBit s), pressNext s, exec_tick h, toNat_shlIn _ _, ?_, fun i hpos hi => ?_,
    upd_tstate_by_bits s.cfg.w_pos _ _ _⟩
  · rw [getLsbD_shlIn_of_lt _ _ s.cfg.w_pos, if_pos rfl]
  · rw [getLsbD_shlIn_of_lt _ _ hi, if_neg (Nat.ne_of_gt hpos)]

/-- Settles O8. -/
theorem nopHoldsEverything : Obligations.NopHoldsEverything :=
  fun s h => afterInit_initialised h s

theorem upd_idempotent (al : Bool) (t : Ternary) (p : Bool) : upd al t (upd al t p) = upd al t p := by
  cases t <;> rfl

/-- Settles O10: the three cases are those of `upd`, which is idempotent. -/
theorem updateSetsFlagFromTernary : Obligations.UpdateSetsFlagFromTernary := by
  intro s h
  refine ⟨exec_update .low h, exec_update .high h, exec_update .indeterminate h, fun t u hu => ?_⟩
  rw [exec_update t h] at hu
  injection hu with hu
  subst hu
  rw [exec_update (s := { s with press := upd s.cfg.activeLow t s.press }) t h, upd_idempotent]

/-- Settles O13: SAMPLE leaves the shifted buffer, and UPDATE on it commits the flag that TICK commits. -/
theorem tickIsSampleThenUpdate : Obligations.TickIsSampleThenUpdate :=
  fun s h => ⟨{ s with buf := shlIn s.buf (sampleBit s) }, s.commit (shlIn s.buf (sampleBit s)),
    exec_sample _ h, exec_update _ h, exec_tick h⟩

/-! When the flag changes -/

/-- UPDATE changes the flag only on a confirmed level, to the meaning of that level (41_sampler_transition.md R70). -/
theorem upd_ne_self {al p : Bool} {t : Ternary} (h : upd al t p ≠ p) :
    (t = .low ∧ upd al t p = al) ∨ (t = .high ∧ upd al t p = !al) := by
  cases t with
  | low => exact .inl ⟨rfl, rfl⟩
  | high => exact .inr ⟨rfl, rfl⟩
  | indeterminate => exact absurd rfl h

/-- Settles O39, by the command of the edge: only TICK and INIT write the flag. -/
theorem flagChangesOnlyOnConfirmedOpposite : Obligations.FlagChangesOnlyOnConfirmedOpposite := by
  intro s t hstep hinit hne
  rcases step_next hstep with ⟨hp, _⟩ | ⟨_, htick, _, rfl⟩ | ⟨_, _, _, rfl⟩
  · rw [hinit] at hp; cases hp
  · exact ⟨htick, upd_ne_self hne⟩
  · exact absurd rfl hne

/-! The event outputs -/

theorem isTick_iff (s : State) : isTick s = true ↔ s.ports.init = false ∧ s.ports.tick = true := by
  simp [isTick]

theorem isTick_iff_decode (s : State) : isTick s = true ↔ decode (fetch s) = .tick := by
  rw [isTick_iff, decode_fetch]
  cases s.ports.init <;> cases s.ports.tick <;> simp

theorem isTick_of_init {s : State} (h : s.ports.init = true) : isTick s = false := by
  simp [isTick, h]

theorem pressEvent_iff (s : State) :
    pressEvent s = true ↔ isTick s = true ∧ s.press = false ∧ pressNext s = true := by
  simp [pressEvent, and_assoc]

theorem releaseEvent_iff (s : State) :
    releaseEvent s = true ↔ isTick s = true ∧ s.press = true ∧ pressNext s = false := by
  simp [releaseEvent, and_assoc]

/-- The flag the event outputs look ahead to is the one TICK commits (41_sampler_transition.md R71). -/
theorem exec_tick_press_iff {s : State} (h : s.initialised = true) (q : Bool) :
    (∃ t, exec .tick s = .next t ∧ t.press = q) ↔ pressNext s = q := by
  simp [exec_tick h, pressNext]

/-- The flag the event outputs look ahead to is the one the coming edge commits, if it is a TICK. -/
theorem press_of_step_tick {s t : State} (hstep : step s = .next t) (h : isTick s = true) :
    t.press = pressNext s := by
  obtain ⟨hinit, htick⟩ := (isTick_iff s).1 h
  rcases step_next hstep with ⟨hp, _⟩ | ⟨_, _, _, rfl⟩ | ⟨_, hnop, _, _⟩
  · rw [hinit] at hp; cases hp
  · rfl
  · rw [htick] at hnop; cases hnop

/-- Settles O17: the read gives `pressEvent`, and its three factors are those of the statement. -/
theorem pressEventMarksPressingTick : Obligations.PressEventMarksPressingTick := by
  intro s h
  refine ⟨pressEvent s, readPort_initialised h .pressEv, ?_⟩
  rw [pressEvent_iff, isTick_iff, exec_tick_press_iff h, and_assoc]

/-- Settles O18: the read gives `releaseEvent`, and its three factors are those of the statement. -/
theorem releaseEventMarksReleasingTick : Obligations.ReleaseEventMarksReleasingTick := by
  intro s h
  refine ⟨releaseEvent s, readPort_initialised h .releaseEv, ?_⟩
  rw [releaseEvent_iff, isTick_iff, exec_tick_press_iff h, and_assoc]

/-- Settles O19: an INIT cycle is readable for the event outputs (log 11), and its command is no TICK. -/
theorem eventsAreLowInInitCycles : Obligations.EventsAreLowInInitCycles := by
  intro s h
  have hpress : pressEvent s = false := by rw [pressEvent, isTick_of_init h]; rfl
  have hrelease : releaseEvent s = false := by rw [releaseEvent, isTick_of_init h]; rfl
  constructor
  · rw [← hpress]
    exact readPort_readable (port := .pressEv) (by simp [portReadable, h])
  · rw [← hrelease]
    exact readPort_readable (port := .releaseEv) (by simp [portReadable, h])

/-- Settles O40: at a TICK the flag looked ahead to is the one the edge commits, and both outputs at 1 would need
the flag to be 0 and 1. -/
theorem eventsMarkFlagChanges : Obligations.EventsMarkFlagChanges := by
  intro s t hi hstep
  have hnext : ∀ q, (isTick s = true ∧ pressNext s = q) ↔ (isTick s = true ∧ t.press = q) :=
    fun q => and_congr_right fun htick => by rw [press_of_step_tick hstep htick]
  have hpress : observe .pressEv s = some (.pressEv true) ↔ pressEvent s = true := by
    simp [observe_of_initialised hi, portValue]
  have hrelease : observe .releaseEv s = some (.releaseEv true) ↔ releaseEvent s = true := by
    simp [observe_of_initialised hi, portValue]
  rw [hpress, hrelease, pressEvent_iff, releaseEvent_iff, ← isTick_iff_decode]
  refine ⟨?_, ?_, ?_⟩
  · rw [and_left_comm, hnext, and_left_comm]
  · rw [and_left_comm, hnext, and_left_comm]
  · rintro ⟨⟨_, hreleased, _⟩, _, hpressed, _⟩
    rw [hreleased] at hpressed; cases hpressed

/-! The flag agrees with a confirmed level -/

/-- What every step keeps, every run keeps. -/
theorem run_keeps {P : State → Prop} (hkeep : ∀ s t, P s → step s = .next t → P t) {k : Nat} {s t : State}
    (h : P s) (hrun : run k s = .next t) : P t := by
  induction k generalizing s with
  | zero => injection hrun with hst; exact hst ▸ h
  | succ k ih =>
    obtain ⟨u, hstep, hrest⟩ := run_succ_next hrun
    exact ih (hkeep s u h hstep) hrest

/-- A commit writes the flag from the very buffer it writes, so they agree whatever was there before
(41_sampler_transition.md R72). -/
theorem commit_agrees (s : State) (b : BitVec s.cfg.w) : (s.commit b).Agrees := by
  intro _
  simp only [commit_buf, commit_press, commit_cfg]
  constructor
  · intro hlow; rw [hlow, upd_low]
  · intro hhigh; rw [hhigh, upd_high]

/-- What closes an edge touches neither the buffer nor the flag. -/
theorem closeEdge_agrees {s : State} (h : s.Agrees) (raw : Bool) : (s.closeEdge raw).Agrees := h

/-- After an INIT edge the flag agrees, whatever the state before. -/
theorem step_init_agrees {s t : State} (hinit : s.ports.init = true) (hstep : step s = .next t) : t.Agrees := by
  rw [step_init hinit] at hstep
  injection hstep with hst
  exact hst ▸ closeEdge_agrees (commit_agrees _ _) _

/-- Settles O34, by the command of the edge: INIT and TICK commit buffer and flag together, NOP writes neither. -/
theorem flagAgreementIsKeptByEveryStep : Obligations.FlagAgreementIsKeptByEveryStep := by
  intro s t h hstep
  rcases step_next hstep with ⟨hinit, _⟩ | ⟨_, _, _, rfl⟩ | ⟨_, _, _, rfl⟩
  · exact step_init_agrees hinit hstep
  · exact closeEdge_agrees (commit_agrees s _) _
  · exact closeEdge_agrees h _

/-- Settles O35: INIT has not happened at power-on. -/
theorem flagAgreementHoldsAtReset : Obligations.FlagAgreementHoldsAtReset :=
  fun hinit => absurd hinit Bool.false_ne_true

/-- Settles O36: the INIT edge brings the agreement about, and the run after it keeps it. -/
theorem flagAgreesFromInitOn : Obligations.FlagAgreesFromInitOn := by
  intro s t k hinit hrun
  obtain ⟨u, hstep, hrest⟩ := run_succ_next hrun
  have htinit : t.initialised = true :=
    run_keeps (P := fun s => s.initialised = true) (fun _ _ _ => initialised_of_step) (initialised_of_step hstep) hrest
  exact run_keeps flagAgreementIsKeptByEveryStep (step_init_agrees hinit hstep) hrest htinit

/-! Start-up with an idle line -/

/-- A sample is the delayed level of an edge that is a TICK (42_input_synchronizer.md R76). -/
theorem exists_tick_of_mem_tickSamples {n : Nat} {sync : BitVec n} {es : List Ports} {x : Bool}
    (h : x ∈ tickSamples sync es) :
    ∃ k e, es[k]? = some e ∧ e.init = false ∧ e.tick = true ∧ x = delayedLevel sync (es.map Ports.raw) k := by
  obtain ⟨event, hevent, hx⟩ := List.mem_filterMap.1 h
  obtain ⟨⟨e, k⟩, hmem, hedge⟩ := List.mem_filterMap.1 hevent
  refine ⟨k, e, List.mem_zipIdx_iff_getElem?.1 hmem, ?_⟩
  dsimp only [edgeEvent] at hedge
  split_ifs at hedge with hinit htick
  · injection hedge with hevent
    subst hevent; cases hx
  · injection hedge with hevent
    subst hevent; injection hx with hx
    exact ⟨Bool.eq_false_iff.2 hinit, htick, hx.symm⟩

/-- From `N_SYNC` edges on the chain's output is the level of the idle line. -/
theorem delayedLevel_of_lineAt {n k : Nat} (sync : BitVec n) {es : List Ports} {level : Bool} (hline : LineAt level es)
    (hn : n ≤ k) (hk : k < es.length) : delayedLevel sync (es.map Ports.raw) k = level := by
  have hidx : k - n < es.length := by omega
  rw [delayedLevel, if_neg (Nat.not_lt.2 hn), List.getD_eq_getElem _ _ (by simpa using hidx), List.getElem_map]
  exact hline _ (List.getElem_mem hidx)

/-- From an INIT edge on, an idle line and no tick before the chain holds its level: the INIT edge and the
`N_SYNC - 1` quiet ones after it fill the chain, so every sample is that level (70_reset_and_hazards.md R103). -/
theorem tickSamples_of_idle_line {n : Nat} (sync : BitVec n) {e : Ports} {es : List Ports} {level : Bool}
    (he : e.init = true) (hquiet : QuietFor (n - 1) es) (hline : LineAt level (e :: es)) :
    ∀ x ∈ tickSamples sync (e :: es), x = level := by
  intro x hx
  obtain ⟨k, a, hget, hinit, htick, rfl⟩ := exists_tick_of_mem_tickSamples hx
  obtain ⟨hk, _⟩ := List.getElem?_eq_some_iff.1 hget
  refine delayedLevel_of_lineAt sync hline (Nat.not_lt.1 fun hearly => ?_) hk
  cases k with
  | zero =>
    injection hget with hget
    rw [← hget, he] at hinit; cases hinit
  | succ j =>
    have hmem : a ∈ es.take (n - 1) :=
      List.mem_of_getElem? (i := j) (by rw [List.getElem?_take_of_lt (by omega)]; exact hget)
    rw [hquiet a hmem] at htick; cases htick

/-- Samples of the level a stable buffer holds leave it as it is (40_debounced_input.md R63). -/
theorem foldl_shlIn_fill_same (w : Nat) {samples : List Bool} {level : Bool} (hall : ∀ x ∈ samples, x = level) :
    samples.foldl shlIn (fill w level) = fill w level := by
  induction samples with
  | nil => rfl
  | cons x xs ih =>
    obtain ⟨rfl, hxs⟩ := List.forall_mem_cons.1 hall
    rw [List.foldl_cons, shlIn_fill_same, ih hxs]

/-- Settles O55: every sample is the idle level, so the buffer stays the fill, and the flag agrees with it. -/
theorem matchedStartUpReportsNoPress : Obligations.MatchedStartUpReportsNoPress := by
  intro s e es he hpol hes hquiet hline
  obtain ⟨t, hrun, _, hbuf⟩ := run_drive_init_buf s he hes
  have hcfg : t.cfg = s.cfg := run_drive_cfg hrun
  rw [hpol, foldl_shlIn_fill_same _ (tickSamples_of_idle_line s.sync he hquiet hline)] at hbuf
  have hstate : tstate t.buf = if s.cfg.activeLow then .high else .low := by
    rw [tstate_congr (congrArg Config.w hcfg) hbuf, tstate_fill s.cfg.w_pos]
  obtain ⟨hlow, hhigh⟩ := flagAgreesFromInitOn (s.drive (e :: es)) t es.length he hrun
  refine ⟨t, hrun, ?_, hstate⟩
  rw [hstate, hcfg] at hlow hhigh
  cases hal : s.cfg.activeLow
  · simpa [hal] using hlow
  · simpa [hal] using hhigh

end Sys2Proof.Machine
end

section
/-! PROOFS of the family 42_input_synchronizer.md: SYNC and the sample (R75, R76), the chain as a delay that forgets what
it held (R80, R81), every sequence of samples behind a synchronizer (R79), and the delay from the line to the flag
(R81). -/

namespace Sys2Proof.Machine

/-! SYNC and the sample -/

/-- Without a synchronizer SYNC does nothing (42_input_synchronizer.md R77). -/
theorem syncStep_eq_self {s : State} (h : s.cfg.nSync = 0) (raw : Bool) : s.syncStep raw = s := by
  have hchain : shlIn s.sync raw = s.sync := BitVec.eq_of_getLsbD_eq fun i hi => by omega
  rw [State.syncStep, hchain]

/-- Settles O11: the value and the bits of the shift. -/
theorem syncAdvancesTheChain : Obligations.SyncAdvancesTheChain := by
  intro s raw
  refine ⟨shlIn s.sync raw, rfl, toNat_shlIn _ _, fun hpos => ?_, fun i hpos hi => ?_, fun hzero => ?_⟩
  · rw [getLsbD_shlIn_of_lt _ _ hpos, if_pos rfl]
  · rw [getLsbD_shlIn_of_lt _ _ hi, if_neg (Nat.ne_of_gt hpos)]
  · exact congrArg Host.Outcome.next (syncStep_eq_self hzero raw)

/-- Settles O12, by the two cases of the selection. -/
theorem sampleIsLastStageOrLine : Obligations.SampleIsLastStageOrLine :=
  fun s => ⟨fun hpos => selectSample_pos hpos s.sync s.ports.raw, fun hzero => if_pos hzero⟩

/-! The chain over many edges -/

/-- SYNC takes place at every edge, whatever the command (42_input_synchronizer.md R75, R80). It is stated through any
`f` of a chain, `t.cfg` being only provably `s.cfg`. -/
theorem sync_of_step {α : Type} (f : (n : Nat) → BitVec n → α) {s t : State} (h : step s = .next t) :
    f t.cfg.nSync t.sync = f s.cfg.nSync (shlIn s.sync s.ports.raw) := by
  obtain ⟨_, _, rfl⟩ := step_next_frame h
  rfl

/-- A run shifts the levels of the line into the chain, and nothing else (42_input_synchronizer.md R80). -/
theorem sync_of_run_drive {α : Type} (f : (n : Nat) → BitVec n → α) {s t : State} {es : List Ports}
    (h : run es.length (s.drive es) = .next t) :
    f t.cfg.nSync t.sync = f s.cfg.nSync ((es.map Ports.raw).foldl shlIn s.sync) := by
  induction es generalizing s with
  | nil =>
    injection h with hst
    rw [← hst]
    rfl
  | cons e es ih =>
    obtain ⟨u, hstep, hrest⟩ := run_succ_next h
    rw [eq_drive_of_step_drive_cons hstep] at hrest
    rw [ih hrest]
    exact sync_of_step (fun n y => f n ((es.map Ports.raw).foldl shlIn y)) hstep

/-- The output of a chain after a line is the line delayed (42_input_synchronizer.md R81). -/
theorem selectSample_foldl_shlIn {n : Nat} (sync : BitVec n) (line : List Bool) (raw : Bool) :
    selectSample (line.foldl shlIn sync) raw = delayedLevel sync (line ++ [raw]) line.length := by
  induction line generalizing sync with
  | nil => exact selectSample_eq_delayedLevel sync raw []
  | cons x line ih => rw [List.foldl_cons, ih, delayedLevel_shlIn]; rfl

/-- Settles O42: the chain holds the line of the run (`sync_of_run_drive`), and its output is that line delayed. -/
theorem synchronizerDelaysByItsDepth : Obligations.SynchronizerDelaysByItsDepth := by
  intro s t es raw hrun
  rw [sync_of_run_drive (fun _ y => selectSample y raw) hrun, selectSample_foldl_shlIn, List.length_map]

/-- As many bits as a register has leave nothing of what it held. -/
theorem foldl_shlIn_forgets {n : Nat} (b b' : BitVec n) {bits : List Bool} (h : n ≤ bits.length) :
    bits.foldl shlIn b = bits.foldl shlIn b' := by
  apply BitVec.eq_of_getLsbD_eq
  intro i hi
  have hnew : i < bits.length := Nat.lt_of_lt_of_le hi h
  rw [getLsbD_foldl_shlIn b bits hi, getLsbD_foldl_shlIn b' bits hi, if_pos hnew, if_pos hnew]

/-- Settles O43: both chains hold the line of the run, shifted into other contents. -/
theorem chainForgetsItsContents : Obligations.ChainForgetsItsContents := by
  intro s t u y es hlen ht hu
  rw [sync_of_run_drive (fun _ y => y.toNat) ht, sync_of_run_drive (fun _ y => y.toNat) hu,
    foldl_shlIn_forgets s.sync y (by simpa using hlen)]

/-! The samples of a list of edges -/

/-- The samples of two lists of edges are those of the first, and then those of the second from the chain the first
leaves. -/
theorem tickSamples_append {n : Nat} (sync : BitVec n) (es fs : List Ports) :
    tickSamples sync (es ++ fs) =
      tickSamples sync es ++ tickSamples ((es.map Ports.raw).foldl shlIn sync) fs := by
  induction es generalizing sync with
  | nil => rfl
  | cons e es ih =>
    rw [List.cons_append, tickSamples_cons, tickSamples_cons, ih, List.append_assoc]
    rfl

theorem tickSamples_nop_cons {n : Nat} (sync : BitVec n) {e : Ports} (es : List Ports) (hi : e.init = false)
    (ht : e.tick = false) : tickSamples sync (e :: es) = tickSamples (shlIn sync e.raw) es := by
  simp [tickSamples_cons, headEvent, hi, ht]

theorem tickSamples_tick_cons {n : Nat} (sync : BitVec n) {e : Ports} (es : List Ports) (hi : e.init = false)
    (ht : e.tick = true) :
    tickSamples sync (e :: es) = selectSample sync e.raw :: tickSamples (shlIn sync e.raw) es := by
  simp [tickSamples_cons, headEvent, hi, ht, TickEvent.sample?]

/-- Without an INIT there is one sample a tick. -/
theorem length_tickSamples {n : Nat} (sync : BitVec n) {es : List Ports} (h : NoInit es) :
    (tickSamples sync es).length = es.countP Ports.tick := by
  induction es generalizing sync with
  | nil => rfl
  | cons e es ih =>
    obtain ⟨he, hes⟩ := List.forall_mem_cons.1 h
    cases ht : e.tick
    · rw [tickSamples_nop_cons sync es he ht, ih _ hes, List.countP_cons_of_neg (by simp [ht])]
    · rw [tickSamples_tick_cons sync es he ht, List.length_cons, ih _ hes, List.countP_cons_of_pos ht]

/-! Every sequence of samples -/

/-- An edge without INIT. -/
def edgeAt (tick raw : Bool) : Ports := { init := false, tick := tick, pullUpActive := false, raw := raw }

theorem noInit_map_edgeAt (tick : Bool) (line : List Bool) : NoInit (line.map (edgeAt tick)) := by
  intro e he
  obtain ⟨_, _, rfl⟩ := List.mem_map.1 he
  rfl

theorem map_raw_map_edgeAt (tick : Bool) (line : List Bool) : (line.map (edgeAt tick)).map Ports.raw = line := by
  rw [List.map_map]
  exact List.map_id line

theorem tickSamples_nops {n : Nat} (sync : BitVec n) (line : List Bool) :
    tickSamples sync (line.map (edgeAt false)) = [] := by
  induction line generalizing sync with
  | nil => rfl
  | cons x line ih => rw [List.map_cons, tickSamples_nop_cons _ _ rfl rfl, ih]

/-- The chain is a queue: the level captured enters at its end and the sample leaves at its front, also where it has no
stage at all. -/
theorem windowOf_append_singleton {n : Nat} (sync : BitVec n) (raw : Bool) :
    windowOf sync ++ [raw] = selectSample sync raw :: windowOf (shlIn sync raw) := by
  have hrest : windowOf (shlIn sync raw) = (windowOf sync ++ [raw]).drop 1 := windowOf_foldl_shlIn sync [raw]
  have hlen : 0 < (windowOf sync ++ [raw]).length := by simp
  have hfront : (windowOf sync ++ [raw])[0] = selectSample sync raw := by
    rcases Nat.eq_zero_or_pos n with rfl | hn
    · simp [selectSample_zero, windowOf]
    · rw [List.getElem_append_left (by simpa using hn), getElem_windowOf, selectSample_pos hn, Nat.sub_zero]
  rw [hrest, ← hfront, List.getElem_cons_drop, List.drop_zero]

/-- What a tick at every edge takes from the queue: first what the chain held, then the line. -/
theorem tickSamples_ticks {n : Nat} (sync : BitVec n) (line : List Bool) :
    tickSamples sync (line.map (edgeAt true)) = (windowOf sync ++ line).take line.length := by
  induction line generalizing sync with
  | nil => rfl
  | cons x line ih =>
    have hqueue : windowOf sync ++ x :: line = selectSample sync x :: (windowOf (shlIn sync x) ++ line) := by
      rw [List.append_cons, windowOf_append_singleton, List.cons_append]
    rw [List.map_cons, tickSamples_tick_cons _ _ rfl rfl, hqueue, List.length_cons, List.take_succ_cons, ← ih]
    rfl

/-- Edges that fill a chain of `n` stages with the start of a line and then take a tick at each level left. -/
def fillThenTick (n : Nat) (line : List Bool) : List Ports :=
  (line.take n).map (edgeAt false) ++ (line.drop n).map (edgeAt true)

theorem noInit_fillThenTick (n : Nat) (line : List Bool) : NoInit (fillThenTick n line) :=
  List.forall_mem_append.2 ⟨noInit_map_edgeAt _ _, noInit_map_edgeAt _ _⟩

theorem quietFor_fillThenTick {n : Nat} {line : List Bool} (h : n ≤ line.length) : QuietFor n (fillThenTick n line) := by
  have hquiet : (fillThenTick n line).take n = (line.take n).map (edgeAt false) :=
    List.take_left' (by simpa using h)
  intro e he
  rw [hquiet] at he
  obtain ⟨_, _, rfl⟩ := List.mem_map.1 he
  rfl

/-- The ticks take the line from its start, `n` levels behind. -/
theorem tickSamples_fillThenTick {n : Nat} (sync : BitVec n) {line : List Bool} (h : n ≤ line.length) :
    tickSamples sync (fillThenTick n line) = line.take (line.length - n) := by
  have hlen : (line.take n).length = n := by simpa using h
  have hfilled : windowOf ((line.take n).foldl shlIn sync) = line.take n := by
    rw [windowOf_foldl_shlIn_of_le sync (Nat.le_of_eq hlen.symm), hlen, Nat.sub_self, List.drop_zero]
  rw [fillThenTick, tickSamples_append, tickSamples_nops, map_raw_map_edgeAt, tickSamples_ticks, hfilled,
    List.take_append_drop, List.length_drop, List.nil_append]

/-- Every list of Booleans is the samples of some edges, whatever the chain holds: the list is put on the line, followed
by as many levels as the chain has stages. -/
theorem exists_edges_tickSamples_eq {n : Nat} (sync : BitVec n) (samples : List Bool) :
    ∃ es, NoInit es ∧ QuietFor n es ∧ tickSamples sync es = samples := by
  have hlen : n ≤ (samples ++ List.replicate n false).length := by simp
  refine ⟨_, noInit_fillThenTick _ _, quietFor_fillThenTick hlen, ?_⟩
  rw [tickSamples_fillThenTick sync hlen]
  exact List.take_left' (by simp)

/-- Settles O44: the run over those edges is the tick level's (`run_drive_tickState`). -/
theorem everySampleSequenceCanOccur : Obligations.EverySampleSequenceCanOccur := by
  intro s samples hi
  obtain ⟨es, hes, hquiet, hsamples⟩ := exists_edges_tickSamples_eq s.sync samples
  obtain ⟨t, hrun, _, htick⟩ := run_drive_tickState es s (.inl hi)
  rw [tickEvents_eq_map_tick s.sync hes, hsamples] at htick
  exact ⟨es, t, hes, hquiet, hsamples, hrun, htick⟩

/-! The samples of a clean change of the line -/

/-- The first `N_SYNC` edges take what the chain held, whatever the line does. -/
theorem delayedLevel_fill_of_lt {n k : Nat} (level : Bool) (line : List Bool) (hk : k < n) :
    delayedLevel (fill n level) line k = level := by
  have hstage : n - 1 - k < n := by omega
  rw [delayedLevel, if_pos hk, getLsbD_fill, decide_eq_true hstage, Bool.true_and]

theorem tickSamples_fill_of_length_le {n : Nat} {es : List Ports} {level : Bool} (h : es.length ≤ n) :
    ∀ x ∈ tickSamples (fill n level) es, x = level := by
  intro x hx
  obtain ⟨k, _, hget, _, _, rfl⟩ := exists_tick_of_mem_tickSamples hx
  obtain ⟨hk, _⟩ := List.getElem?_eq_some_iff.1 hget
  exact delayedLevel_fill_of_lt level _ (Nat.lt_of_lt_of_le hk h)

/-- A chain that holds the level of a still line gives no other sample. -/
theorem tickSamples_fill_of_lineAt {n : Nat} {es : List Ports} {level : Bool} (hline : LineAt level es) :
    ∀ x ∈ tickSamples (fill n level) es, x = level := by
  intro x hx
  obtain ⟨k, _, hget, _, _, rfl⟩ := exists_tick_of_mem_tickSamples hx
  obtain ⟨hk, _⟩ := List.getElem?_eq_some_iff.1 hget
  by_cases hn : k < n
  · exact delayedLevel_fill_of_lt level _ hn
  · exact delayedLevel_of_lineAt _ hline (Nat.not_lt.1 hn) hk

theorem map_raw_of_lineAt {es : List Ports} {level : Bool} (h : LineAt level es) :
    ∀ x ∈ es.map Ports.raw, x = level :=
  List.forall_mem_map.2 h

/-- Up to `N_SYNC` edges after the change the samples are still the old level (42_input_synchronizer.md R81). -/
theorem tickSamples_before_change {n : Nat} {old new : List Ports} {level : Bool} (hold : LineAt level old) :
    ∀ x ∈ tickSamples (fill n level) (old ++ new.take n), x = level := by
  rw [tickSamples_append, foldl_shlIn_fill_same n (map_raw_of_lineAt hold)]
  exact List.forall_mem_append.2
    ⟨tickSamples_fill_of_lineAt hold, tickSamples_fill_of_length_le (List.length_take_le n new)⟩

/-- From `N_SYNC` edges after the change on the samples are the new level (42_input_synchronizer.md R81). -/
theorem tickSamples_after_change {n : Nat} (sync : BitVec n) {old new : List Ports} {level : Bool}
    (hnew : LineAt level new) :
    ∀ x ∈ tickSamples (((old ++ new.take n).map Ports.raw).foldl shlIn sync) (new.drop n), x = level := by
  rcases Nat.le_total new.length n with hle | hle
  · rw [List.drop_eq_nil_of_le hle]
    exact List.forall_mem_nil _
  · have hnewest : LineAt level (new.take n) := fun e he => hnew e (List.mem_of_mem_take he)
    have hfilled : n ≤ ((new.take n).map Ports.raw).length := by simpa using hle
    rw [List.map_append, List.foldl_append, foldl_shlIn_forgets _ (fill n level) hfilled,
      foldl_shlIn_fill_same n (map_raw_of_lineAt hnewest)]
    exact tickSamples_fill_of_lineAt fun e he => hnew e (List.mem_of_mem_drop he)

/-! Periodic ticks -/

/-- Ticks at one phase of every period are counted by that residue. -/
theorem countP_tick_of_ticksEvery {period phase : Nat} (hphase : phase < period) {es : List Ports}
    (h : TicksEvery period phase es) : es.countP Ports.tick = es.length.count (· ≡ phase [MOD period]) := by
  induction es using List.reverseRecOn with
  | nil => rfl
  | append_singleton es e ih =>
    rw [TicksEvery, List.zipIdx_append, List.forall_mem_append] at h
    obtain ⟨hes, hlast⟩ := h
    have he : e.tick = true ↔ es.length ≡ phase [MOD period] := by
      rw [Nat.ModEq, Nat.mod_eq_of_lt hphase]
      exact hlast (e, es.length) (by simp)
    rw [List.countP_append, ih hes, List.countP_singleton, List.length_append, List.length_singleton, Nat.count_succ]
    simp only [he]

/-- In `q` periods there are `q` ticks, wherever one begins to count. -/
theorem count_modEq_add_mul {period : Nat} (hpos : 0 < period) (phase k q : Nat) :
    (k + q * period).count (· ≡ phase [MOD period]) = k.count (· ≡ phase [MOD period]) + q := by
  rw [Nat.count_modEq_card _ hpos, Nat.count_modEq_card _ hpos, Nat.add_mul_div_right _ _ hpos,
    Nat.add_mul_mod_self_right, Nat.add_right_comm]

/-- The ticks of the later edges are those of all without those of the earlier ones. -/
theorem count_add_countP_tick_of_ticksEvery {period phase : Nat} (hphase : phase < period) {es fs : List Ports}
    (h : TicksEvery period phase (es ++ fs)) :
    es.length.count (· ≡ phase [MOD period]) + fs.countP Ports.tick =
      (es.length + fs.length).count (· ≡ phase [MOD period]) := by
  have hes : TicksEvery period phase es := by
    rw [TicksEvery, List.zipIdx_append, List.forall_mem_append] at h
    exact h.1
  rw [← countP_tick_of_ticksEvery hphase hes, ← List.countP_append, countP_tick_of_ticksEvery hphase h,
    List.length_append]

/-- Edges within `q` periods hold at most `q` ticks, and edges that span them at least `q`. -/
theorem countP_tick_bounds_of_ticksEvery {period phase : Nat} (hphase : phase < period) {es fs : List Ports}
    (h : TicksEvery period phase (es ++ fs)) (q : Nat) :
    (fs.length ≤ q * period → fs.countP Ports.tick ≤ q) ∧ (q * period ≤ fs.length → q ≤ fs.countP Ports.tick) := by
  have hcount := count_add_countP_tick_of_ticksEvery hphase h
  have hperiods := count_modEq_add_mul (Nat.zero_lt_of_lt hphase) phase es.length q
  constructor
  · intro hlen
    have hmono := Nat.count_monotone (· ≡ phase [MOD period]) (Nat.add_le_add_left hlen es.length)
    omega
  · intro hlen
    have hmono := Nat.count_monotone (· ≡ phase [MOD period]) (Nat.add_le_add_left hlen es.length)
    omega

/-! From the line to the flag -/

/-- Fewer than `W` samples hold no run of `W`, however many of the other level came before them. -/
theorem noRun_append_of_length_lt {w : Nat} {before after : List Bool} {level : Bool}
    (hbefore : ∀ x ∈ before, x = !level) (h : after.length < w) : NoRun w level (before ++ after) := by
  intro hrun
  have hnone : before.count level = 0 :=
    List.count_eq_zero.2 fun hmem => (Bool.eq_not_self level).1 (hbefore level hmem)
  have hcount : w ≤ (before ++ after).count level := by
    simpa using hrun.sublist.count_le level
  rw [List.count_append, hnone, Nat.zero_add] at hcount
  exact absurd (hcount.trans List.count_le_length) (Nat.not_le.2 h)

/-- The flag after samples the last `W` of which are one level, and more before them. -/
theorem run_drive_press_of_last_samples (s : State) {es : List Ports} {before after : List Bool} {level : Bool}
    (hi : s.initialised = true) (hes : NoInit es) (hsamples : tickSamples s.sync es = before ++ after)
    (hafter : ∀ x ∈ after, x = level) (h : s.cfg.w ≤ after.length) :
    ∃ t, run es.length (s.drive es) = .next t ∧ t.press = (level != s.cfg.activeLow) := by
  obtain ⟨t, hrun, _, _, hpress⟩ := run_drive_noInit s hi hes
  have hne : before ++ after ≠ [] :=
    List.append_ne_nil_of_right_ne_nil _ (List.ne_nil_of_length_pos (Nat.lt_of_lt_of_le s.cfg.w_pos h))
  have hconf : tstate ((before ++ after).foldl shlIn s.buf) = if level then .high else .low := by
    rw [List.foldl_append]
    exact tstate_foldl_shlIn_of_all s.cfg.w_pos _ hafter h
  rw [hsamples] at hpress
  exact ⟨t, hrun, hpress.trans (tickRun_ticks_press_of_confirmed s.press hne hconf)⟩

theorem eq_fill_of_getLsbD {n : Nat} {b : BitVec n} {level : Bool} (h : ∀ i < n, b.getLsbD i = level) :
    b = fill n level := by
  apply BitVec.eq_of_getLsbD_eq
  intro i hi
  rw [h i hi, getLsbD_fill, decide_eq_true hi, Bool.true_and]

/-- The samples of a clean change of the line: the old level, and from `N_SYNC` edges after the change on the new one, a
sample a tick. -/
theorem tickSamples_of_change {n : Nat} {old new : List Ports} {level : Bool} (hes : NoInit (old ++ new))
    (hold : LineAt level old) (hnew : LineAt (!level) new) :
    ∃ before after, tickSamples (fill n level) (old ++ new) = before ++ after ∧ (∀ x ∈ before, x = level) ∧
      (∀ x ∈ after, x = !level) ∧ after.length = (new.drop n).countP Ports.tick := by
  have hlate : NoInit (new.drop n) := fun e he => hes e (List.mem_append_right _ (List.mem_of_mem_drop he))
  have hsplit := tickSamples_append (fill n level) (old ++ new.take n) (new.drop n)
  rw [List.append_assoc, List.take_append_drop] at hsplit
  exact ⟨_, _, hsplit, tickSamples_before_change hold, tickSamples_after_change _ hnew, length_tickSamples _ hlate⟩

/-- Settles O56: the samples turn `N_SYNC` edges after the change, and the ticks from there on are counted. -/
theorem lineToFlagDelayIsBounded : Obligations.LineToFlagDelayIsBounded := by
  intro s t old new level period phase hi hagrees hbuf hsync _ hphase hes hticks hold hnew hrun
  obtain ⟨before, after, hsamples, hbefore, hafter, hcount⟩ := tickSamples_of_change hes hold hnew
  rw [← eq_fill_of_getLsbD hsync] at hsamples
  rw [← List.take_append_drop s.cfg.nSync new, ← List.append_assoc] at hticks
  have hlate : (new.drop s.cfg.nSync).length = new.length - s.cfg.nSync := List.length_drop
  constructor
  · intro hle
    have hfew : after.length ≤ s.cfg.w - 1 := by
      rw [hcount]
      exact (countP_tick_bounds_of_ticksEvery hphase hticks _).1 (by omega)
    have hnorun : NoRun s.cfg.w (!level) (tickSamples s.sync (old ++ new)) := by
      rw [hsamples]
      exact noRun_append_of_length_lt (by simpa using hbefore) (Nat.lt_of_le_pred s.cfg.w_pos hfew)
    obtain ⟨u, hu, hpress⟩ := shortPressNeverReachesTheFlag s _ level hi hagrees hes hbuf hnorun
    injection hrun.symm.trans hu with htu
    rw [htu, hpress]
  · intro hle
    have hmany : s.cfg.w ≤ after.length := by
      rw [hcount]
      exact (countP_tick_bounds_of_ticksEvery hphase hticks _).2 (by omega)
    obtain ⟨u, hu, hpress⟩ := run_drive_press_of_last_samples s hi hes hsamples hafter hmany
    injection hrun.symm.trans hu with htu
    rw [htu, hpress, press_of_agrees_fill hi hagrees hbuf]
    cases level <;> cases s.cfg.activeLow <;> decide

end Sys2Proof.Machine
end

section
/-! PROOFS of the family 60_exceptions.md: which edges go through (R84, R93), NOP edges (R97), INIT against a tick and the
ignored bits (R89), and the inputs of an edge (R92). -/

namespace Sys2Proof.Machine

/-! Which edges go through -/

/-- An edge goes through exactly after INIT or as one (60_exceptions.md R93; for NOP edges log 18). -/
theorem exists_step_iff (s : State) : (∃ t, step s = .next t) ↔ (s.initialised = true ∨ s.ports.init = true) := by
  constructor
  · rintro ⟨t, hstep⟩
    rcases step_next hstep with ⟨hinit, _⟩ | ⟨_, _, hi, _⟩ | ⟨_, _, hi, _⟩
    · exact .inr hinit
    · exact .inl hi
    · exact .inl hi
  · intro h
    obtain ⟨t, hstep, _⟩ := step_tickState h
    exact ⟨t, hstep⟩

/-- After INIT a run of any length goes through, whatever the inputs (70_reset_and_hazards.md R110). -/
theorem exists_run_of_initialised (k : Nat) {s : State} (hi : s.initialised = true) :
    ∃ t, run k s = .next t ∧ t.initialised = true := by
  induction k generalizing s with
  | zero => exact ⟨s, rfl, hi⟩
  | succ k ih =>
    obtain ⟨u, hstep⟩ := (exists_step_iff s).2 (.inl hi)
    rw [run_succ hstep]
    exact ih (initialised_of_step hstep)

/-- Settles O26; the table of exception causes is empty (60_exceptions.md R84), so there is no fault to step to. -/
theorem edgesStopOnlyBeforeInit : Obligations.EdgesStopOnlyBeforeInit :=
  ⟨exists_step_iff, fun k _ hi => exists_run_of_initialised k hi, fun _ f => nomatch f⟩

/-! NOP edges -/

/-- NOP edges are no events of the tick level (00_scope.md R9). -/
theorem tickEvents_of_nops {n : Nat} (sync : BitVec n) {es : List Ports}
    (hes : ∀ e ∈ es, e.init = false ∧ e.tick = false) : tickEvents sync es = [] := by
  induction es generalizing sync with
  | nil => rfl
  | cons e es ih =>
    obtain ⟨⟨hinit, htick⟩, hrest⟩ := List.forall_mem_cons.1 hes
    have hnone : headEvent sync e = none := by simp [headEvent, hinit, htick]
    rw [tickEvents_cons, hnone, ih _ hrest]
    rfl

/-- Settles O54: at the tick level, where `buf` and `press` are, nothing happens. -/
theorem anyNumberOfNopsHolds : Obligations.AnyNumberOfNopsHolds := by
  intro s es hi hes
  obtain ⟨t, hrun, _, htick⟩ := run_drive_tickState es s (.inl hi)
  rw [tickEvents_of_nops s.sync hes] at htick
  exact ⟨t, hrun, htick⟩

/-! The inputs of the next cycle -/

theorem nextDraws_cons {s : State} {p : Ports} {ps : List Ports} (h : s.script = p :: ps) : nextDraws s = s.draws := by
  simp [nextDraws, h]

theorem nextDraws_nil {s : State} (h : s.script = []) : nextDraws s = s.draws + 1 := by simp [nextDraws, h]

/-- Settles O24: the inputs after an edge do not depend on its command (`step_next_frame`). -/
theorem inputsFollowTheScript : Obligations.InputsFollowTheScript := by
  intro s t hstep
  obtain ⟨_, _, rfl⟩ := step_next_frame hstep
  exact ⟨fun _ _ h => ⟨nextPorts_cons h, congrArg List.tail h, nextDraws_cons h⟩,
    fun h => ⟨nextPorts_nil h, congrArg List.tail h, nextDraws_nil h⟩⟩

/-! Use before INIT -/

/-- Before INIT a port read is refused, but that of an event output in an INIT cycle (60_exceptions.md R93; log 11). -/
theorem readPort_before_init {s : State} {port : OutPort} (hi : s.initialised = false)
    (h : s.ports.init = false ∨ (port ≠ .pressEv ∧ port ≠ .releaseEv)) :
    readPort port s = .refused .usedBeforeInit := by
  rw [readPort, observe_before_init hi h]

/-- Settles O25: the commands and micro-operations by `afterInit_refused`, the reads by `readPort_before_init`. -/
theorem useBeforeInitIsRefused : Obligations.UseBeforeInitIsRefused := by
  intro s hi
  have hread : ∀ port : OutPort, port ≠ .pressEv ∧ port ≠ .releaseEv → readPort port s = .refused .usedBeforeInit :=
    fun _ hport => readPort_before_init hi (.inr hport)
  refine ⟨afterInit_refused hi _, afterInit_refused hi _, fun _ => afterInit_refused hi _,
    fun _ => afterInit_refused hi _, hread .isHigh (by decide), hread .isLow (by decide), hread .state (by decide),
    hread .press (by decide), fun hinit => ⟨?_, ?_, step_refused hi hinit⟩, fun p => ⟨_, exec_init p s, rfl⟩,
    fun raw => ⟨s.syncStep raw, rfl, hi⟩⟩
  · exact readPort_before_init (port := .pressEv) hi (.inl hinit)
  · exact readPort_before_init (port := .releaseEv) hi (.inl hinit)

/-! The ignored bits of the command word -/

/-- INIT wins over a tick at the same edge (60_exceptions.md R89). -/
theorem step_init_ignores_tick (s : State) (x : Bool) (h : s.ports.init = true) :
    step { s with ports := { s.ports with tick := x } } = step s :=
  (step_init (s := { s with ports := { s.ports with tick := x } }) h).trans (step_init h).symm

/-- Outside INIT no command has `pull_up_active` as its operand (30_encoding.md R53). -/
theorem step_ignores_pullUpActive (s : State) (x : Bool) (h : s.ports.init = false) :
    step { s with ports := { s.ports with pullUpActive := x } } = step s := by
  rcases Bool.eq_false_or_eq_true s.initialised with hi | hi
  · rcases Bool.eq_false_or_eq_true s.ports.tick with ht | ht
    · exact (step_tick (s := { s with ports := { s.ports with pullUpActive := x } }) hi h ht).trans
        (step_tick hi h ht).symm
    · exact (step_nop (s := { s with ports := { s.ports with pullUpActive := x } }) hi h ht).trans
        (step_nop hi h ht).symm
  · exact (step_refused (s := { s with ports := { s.ports with pullUpActive := x } }) hi h).trans
      (step_refused hi h).symm

/-- Settles O28. -/
theorem initWinsAndIgnoredBitsDoNothing : Obligations.InitWinsAndIgnoredBitsDoNothing :=
  ⟨step_init_ignores_tick, step_ignores_pullUpActive⟩

end Sys2Proof.Machine
end

section
/-! PROOFS of the family 70_reset_and_hazards.md: no tick jumps between the confirmed levels (R105), and how long a changed
flag lasts (R107). -/

namespace Sys2Proof.Machine

/-! A confirmed buffer -/

theorem tstate_confirmed_iff_fill {w : Nat} (hw : 0 < w) (b : BitVec w) (level : Bool) :
    tstate b = (if level then .high else .low) ↔ b = fill w level := by
  cases level
  · exact tstate_low_iff hw b
  · exact tstate_high_iff b

/-- With two bits or more one sample leaves a bit of the confirmed level in the buffer (70_reset_and_hazards.md R105). -/
theorem tstate_shlIn_ne_opposite {w : Nat} (hw : 1 < w) {b : BitVec w} {level : Bool}
    (h : tstate b = if level then .high else .low) (bit : Bool) :
    tstate (shlIn b bit) ≠ if !level then .high else .low := by
  rw [(tstate_confirmed_iff_fill (Nat.zero_lt_of_lt hw) b level).1 h]
  exact tstate_foldl_shlIn_fill_ne (samples := [bit]) level hw

/-! Edges between the confirmed levels -/

/-- By the command of the edge: TICK shifts one sample in, NOP holds `buf`. -/
theorem step_tstate_ne_opposite {s t : State} {level : Bool} (hstep : step s = .next t) (hinit : s.ports.init = false)
    (hw : 1 < s.cfg.w) (h : tstate s.buf = if level then .high else .low) :
    tstate t.buf ≠ if !level then .high else .low := by
  rcases step_next hstep with ⟨hp, _⟩ | ⟨_, _, _, rfl⟩ | ⟨_, _, _, rfl⟩
  · rw [hinit] at hp; cases hp
  · exact tstate_shlIn_ne_opposite hw h (sampleBit s)
  · change tstate s.buf ≠ _
    rw [h]
    cases level <;> decide

/-- Only High and Low have codes that differ in both bits (30_encoding.md R52). -/
theorem ternaryCode_shares_bit {t u : Ternary} (hfall : ¬ (t = .high ∧ u = .low)) (hrise : ¬ (t = .low ∧ u = .high)) :
    (ternaryCode t).getLsbD 0 = (ternaryCode u).getLsbD 0 ∨ (ternaryCode t).getLsbD 1 = (ternaryCode u).getLsbD 1 := by
  cases t with
  | high =>
    cases u with
    | high => exact .inl rfl
    | low => exact absurd ⟨rfl, rfl⟩ hfall
    | indeterminate => exact .inl rfl
  | low =>
    cases u with
    | high => exact absurd ⟨rfl, rfl⟩ hrise
    | low => exact .inl rfl
    | indeterminate => exact .inr rfl
  | indeterminate =>
    cases u with
    | high => exact .inl rfl
    | low => exact .inr rfl
    | indeterminate => exact .inl rfl

/-- Settles O41: both jumps leave a confirmed level for the opposite one, and the port carries the code of the state. -/
theorem ticksNeverJumpBetweenConfirmedLevels : Obligations.TicksNeverJumpBetweenConfirmedLevels := by
  intro s t hstep hinit hw
  have hfall : ¬ (tstate s.buf = .high ∧ tstate t.buf = .low) :=
    fun ⟨hhigh, hlow⟩ => step_tstate_ne_opposite (level := true) hstep hinit hw hhigh hlow
  have hrise : ¬ (tstate s.buf = .low ∧ tstate t.buf = .high) :=
    fun ⟨hlow, hhigh⟩ => step_tstate_ne_opposite (level := false) hstep hinit hw hlow hhigh
  refine ⟨hfall, hrise, ?_⟩
  rw [stateCode_eq_ternaryCode s.cfg.w_pos, stateCode_eq_ternaryCode t.cfg.w_pos]
  exact ternaryCode_shares_bit hfall hrise

/-! A changed flag -/

/-- After a TICK edge the flag agrees, whatever the state before (41_sampler_transition.md R72). -/
theorem step_tick_agrees {s t : State} (htick : isTick s = true) (hstep : step s = .next t) : t.Agrees := by
  obtain ⟨hinit, hp⟩ := (isTick_iff s).1 htick
  rcases step_next hstep with ⟨hi, _⟩ | ⟨_, _, _, rfl⟩ | ⟨_, hnop, _, _⟩
  · rw [hinit] at hi; cases hi
  · exact closeEdge_agrees (commit_agrees s _) _
  · rw [hp] at hnop; cases hnop

/-- A tick that changes the flag leaves the buffer stable at some level (41_sampler_transition.md R70). -/
theorem exists_fill_of_press_change {s u : State} (hstep : step s = .next u) (hinit : s.ports.init = false)
    (hne : u.press ≠ s.press) : isTick s = true ∧ ∃ level, u.buf = fill u.cfg.w level := by
  obtain ⟨htick, hconf⟩ := flagChangesOnlyOnConfirmedOpposite s u hstep hinit hne
  refine ⟨(isTick_iff s).2 ⟨hinit, htick⟩, ?_⟩
  rcases hconf with ⟨hlow, _⟩ | ⟨hhigh, _⟩
  · exact ⟨false, (tstate_confirmed_iff_fill u.cfg.w_pos _ false).1 hlow⟩
  · exact ⟨true, (tstate_confirmed_iff_fill u.cfg.w_pos _ true).1 hhigh⟩

/-- Settles O53: the changing tick leaves a stable buffer, and fewer than `W` samples hold no run of `W`, as in a short
press. -/
theorem flagKeepsANewValueForWTicks : Obligations.FlagKeepsANewValueForWTicks := by
  intro s u es hstep hinit hne hes hfew
  obtain ⟨htick, level, hbuf⟩ := exists_fill_of_press_change hstep hinit hne
  rw [← step_cfg hstep] at hfew
  have hnorun : NoRun u.cfg.w (!level) (tickSamples u.sync es) :=
    noRun_append_of_length_lt (before := []) (by simp) hfew
  exact shortPressNeverReachesTheFlag u es level (initialised_of_step hstep) (step_tick_agrees htick hstep) hes hbuf
    hnorun

end Sys2Proof.Machine
end
